-- ==== Sys2Proof/Word.lean ====
section
/-! DEFINITION. The widths and plain data types of the block (00_scope.md R7, 10_state.md R26 to R30), and the one
table constructor the model uses. -/

namespace Sys2Proof

/-- A register or command word: CMD_W = 32 bits (00_scope.md R7). -/
abbrev Word := BitVec 32

/-- One element of the IN and OUT sequences: ELEM_W = 8 bits (00_scope.md R7). -/
abbrev Byte := BitVec 8

/-- A Symbol: SYM_W = 8 bits (00_scope.md R7, R13). -/
abbrev Symbol := BitVec 8

/-- A bit sequence, first bit at the front; `false` is 0 (00_scope.md R9). -/
abbrev Bits := List Bool

/-- A DataBlock packed into DATA_W = 4 bits by 20_memory.md R55. -/
abbrev DataBlock := BitVec 4

/-- A CodeBlock packed into CODE_W = 7 bits by 20_memory.md R56. -/
abbrev CodeBlock := BitVec 7

/-- An errorPosition: POS_W = 3 bits (00_scope.md R7). -/
abbrev Pos := BitVec 3

/-- An index into `NODE[0..510]`, NODE_MAX = 511 entries (00_scope.md R7, 10_state.md R28, R39). -/
abbrev NodeIdx := Fin 511

/-- A node entry (10_state.md R29): kind, and the fields that are meaningful for that kind.
Counts and weights are exact naturals, as 40_huffman.md R116 allows (log entry 9). -/
inductive Node where
  | leaf (sym : Symbol) (weight : Nat) (seq : NodeIdx)
  | internal (weight : Nat) (left right : NodeIdx) (seq : NodeIdx)
  deriving DecidableEq, Repr, Inhabited

/-- The `weight` field of a node entry (10_state.md R29). -/
def Node.weight : Node → Nat
  | .leaf _ w _ => w
  | .internal w _ _ _ => w

/-- The `seq` field of a node entry: its creation number (10_state.md R29). -/
def Node.seq : Node → NodeIdx
  | .leaf _ _ q => q
  | .internal _ _ _ q => q

/-- `kind = LEAF` (10_state.md R29). -/
def Node.isLeaf : Node → Bool
  | .leaf _ _ _ => true
  | .internal _ _ _ _ => false

/-- The vector of `n` entries whose entry `k` is `f k`. -/
def table {α : Type} (n : Nat) (f : Fin n → α) : Vector α n :=
  ⟨((List.finRange n).map f).toArray, by simp⟩

@[simp] theorem table_getElem {α : Type} (n : Nat) (f : Fin n → α) (k : Nat) (h : k < n) :
    (table n f)[k] = f ⟨k, h⟩ := by
  simp [table]

/-- The entry of a 256-entry table at a Symbol (tables indexed by Symbol: 10_state.md R28, R31). -/
def atSym {α : Type} (v : Vector α 256) (s : Symbol) : α := v[s.toNat]'s.isLt

@[simp] theorem atSym_table {α : Type} (f : Fin 256 → α) (s : Symbol) :
    atSym (table 256 f) s = f s.toFin := by
  simp [atSym]

end Sys2Proof
end

