-- ==== Sys2Proof/Syntax.lean ====
section
/-! DEFINITION. The commands: one constructor per row of spec/opcode_table.json (30_encoding.md R72), and the host
command syntax of R76 and R77. -/

namespace Sys2Proof

/-- The seven commands of 30_encoding.md R72. Operand widths are those of R71, carried by the types. -/
inductive Instr where
  /-- HUF_BUILD (40_huffman.md R101). -/
  | hufBuild
  /-- HUF_ENCODE (40_huffman.md R108). -/
  | hufEncode
  /-- HUF_DECODE (40_huffman.md R109). -/
  | hufDecode
  /-- HAM_GENERATE with DATA4 (41_hamming.md R154). -/
  | hamGenerate (data4 : DataBlock)
  /-- HAM_CORRECT with CW7 (41_hamming.md R155). -/
  | hamCorrect (cw7 : CodeBlock)
  /-- HAM_ENCODE_STREAM (41_hamming.md R156). -/
  | hamEncodeStream
  /-- HAM_DECODE_STREAM with LEN24 (41_hamming.md R157). -/
  | hamDecodeStream (len24 : BitVec 24)
  deriving DecidableEq, Repr

/-- One line of the host command syntax (30_encoding.md R76), and the one pseudo-command (R77). Operands are
written as numbers; `HostCommand.wellFormed` checks their ranges. -/
inductive HostCommand where
  | hufBuild (text : List Nat)
  | hufEncode (text : List Nat)
  | hufDecode (bits : Bits)
  | hamGenerate (data4 : Nat)
  | hamCorrect (cw7 : Nat)
  | hamEncodeStream (bits : Bits)
  | hamDecodeStream (len24 : Nat) (cwlist : List Nat)
  /-- HUF_LOOKUP `<sym>` (30_encoding.md R77). -/
  | hufLookup (sym : Nat)
  deriving DecidableEq, Repr

end Sys2Proof
end

