-- ==== Sys2Proof/Decode.lean ====
section
/-! DEFINITION. The command word (30_encoding.md R70 to R75): its fields, the decoder, total on every word and rejecting
by name; then the encoder, the opcode table and the expansion of a host command line. -/

namespace Sys2Proof

/-- `OP = CMD[3:0]` (30_encoding.md R70). -/
def opField (w : Word) : BitVec 4 := w.extractLsb' 0 4

/-- `RSV = CMD[7:4]` (30_encoding.md R70). -/
def rsvField (w : Word) : BitVec 4 := w.extractLsb' 4 4

/-- `ARG = CMD[31:8]` (30_encoding.md R70). -/
def argField (w : Word) : BitVec 24 := w.extractLsb' 8 24

/-- `DATA4 = CMD[11:8]` (30_encoding.md R71). -/
def data4Field (w : Word) : DataBlock := w.extractLsb' 8 4

/-- `CW7 = CMD[14:8]` (30_encoding.md R71). -/
def cw7Field (w : Word) : CodeBlock := w.extractLsb' 8 7

/-- `LEN24 = CMD[31:8]` (30_encoding.md R71). -/
def len24Field (w : Word) : BitVec 24 := w.extractLsb' 8 24

/-- Why a word is ILLEGAL (30_encoding.md R74). All three end the command with ILLEGAL_CMD. -/
inductive Illegal where
  /-- RSV is not 0. -/
  | reservedBits
  /-- OP is 0x0 or one of 0x8 to 0xF. -/
  | reservedOpcode
  /-- A must-be-0 bit of ARG is 1. -/
  | argBits
  deriving DecidableEq, Repr

/-- `i`, if the must-be-0 part of ARG is 0 (30_encoding.md R71). -/
def requireZero {n : Nat} (mustBeZero : BitVec n) (i : Instr) : Except Illegal Instr :=
  if mustBeZero = 0 then .ok i else .error .argBits

/-- Decode of the latched word (30_encoding.md R71 to R74): total on every word. -/
def decode (w : Word) : Except Illegal Instr :=
  if rsvField w = 0 then
    match (opField w).toNat with
    | 1 => requireZero (argField w) .hufBuild
    | 2 => requireZero (argField w) .hufEncode
    | 3 => requireZero (argField w) .hufDecode
    | 4 => requireZero (w.extractLsb' 12 20) (.hamGenerate (data4Field w))
    | 5 => requireZero (w.extractLsb' 15 17) (.hamCorrect (cw7Field w))
    | 6 => requireZero (argField w) .hamEncodeStream
    | 7 => .ok (.hamDecodeStream (len24Field w))
    | _ => .error .reservedOpcode
  else .error .reservedBits

/-- The instruction the decoder reads from a table row's word of `nbits` bits (bits above `nbits` are 0). Every
command word is 32 bits (30_encoding.md R75). -/
def decodeTableWord (nbits w : Nat) : Option Instr :=
  match decode (BitVec.ofNat 32 (w % 2 ^ nbits)) with
  | .ok i => some i
  | .error _ => none

/-- The word of a command (30_encoding.md R72, column "encoding (bit 31 first)"). -/
def encode : Instr → Word
  | .hufBuild => 0b00000000000000000000000000000001#32
  | .hufEncode => 0b00000000000000000000000000000010#32
  | .hufDecode => 0b00000000000000000000000000000011#32
  | .hamGenerate d => 0#20 ++ d ++ 0b00000100#8
  | .hamCorrect c => 0#17 ++ c ++ 0b00000101#8
  | .hamEncodeStream => 0b00000000000000000000000000000110#32
  | .hamDecodeStream l => l ++ 0b00000111#8

/-- The `match` and `mask` columns of a command's row (30_encoding.md R72, opcode_table.json). -/
def rowOf : Instr → Word × Word
  | .hufBuild => (0x00000001, 0xFFFFFFFF)
  | .hufEncode => (0x00000002, 0xFFFFFFFF)
  | .hufDecode => (0x00000003, 0xFFFFFFFF)
  | .hamGenerate _ => (0x00000004, 0xFFFFF0FF)
  | .hamCorrect _ => (0x00000005, 0xFFFF80FF)
  | .hamEncodeStream => (0x00000006, 0xFFFFFFFF)
  | .hamDecodeStream _ => (0x00000007, 0x000000FF)

/-- The IN elements of a `<bits>` operand: each character becomes `0x00` or `0x01` (30_encoding.md R76). -/
def bitElements (bits : Bits) : List Byte := bits.map fun b => if b then 1 else 0

/-- The IN elements of a `<text>` or `<cwlist>` operand (30_encoding.md R76). -/
def numberElements (ns : List Nat) : List Byte := ns.map (BitVec.ofNat 8)

/-- A host command line as the command and its IN (30_encoding.md R76); a line with no `in=` has `IN = []`.
HUF_LOOKUP expands to HUF_ENCODE of the one symbol (R77). -/
def HostCommand.expand : HostCommand → Instr × List Byte
  | .hufBuild text => (.hufBuild, numberElements text)
  | .hufEncode text => (.hufEncode, numberElements text)
  | .hufDecode bits => (.hufDecode, bitElements bits)
  | .hamGenerate data4 => (.hamGenerate (BitVec.ofNat 4 data4), [])
  | .hamCorrect cw7 => (.hamCorrect (BitVec.ofNat 7 cw7), [])
  | .hamEncodeStream bits => (.hamEncodeStream, bitElements bits)
  | .hamDecodeStream len24 cwlist => (.hamDecodeStream (BitVec.ofNat 24 len24), numberElements cwlist)
  | .hufLookup sym => (.hufEncode, [BitVec.ofNat 8 sym])

end Sys2Proof
end

