-- ==== Sys2Proof/Config.lean ====
section
/-! DEFINITION. What an implementation fixes (the OPEN parameter MAX_IN) and the free values: constants without a body,
so nothing can be proved of their values. -/

namespace Sys2Proof.Config

/-- MAX_IN less one, of which only the range is known (00_scope.md R7, P1; log entry 1). -/
opaque maxInPred : Fin 16777215

/-- MAX_IN, the largest number of elements of IN: OPEN, with `1 <= MAX_IN <= 2^24 - 1` (00_scope.md R7).
`Machine.State.reset` holds it in the field `maxIn`, which the step reads (log entry 1). -/
def maxIn : Nat := maxInPred.val + 1

theorem one_le_maxIn : 1 ≤ maxIn := by simp [maxIn]

theorem maxIn_lt : maxIn < 2 ^ 24 := by
  have h := maxInPred.isLt
  simp only [maxIn]
  omega

/-- Draw `n`: STATUS.TREE_VALID as read while BUSY = 1 (U1; log entry 10). -/
opaque freeTreeValid : Nat → Bool

/-- Draw `n`: STATUS.ERR as read while BUSY = 1 (U1; log entry 10). -/
opaque freeErr : Nat → BitVec 4

/-- Draw `n`: RESULT as read while BUSY = 1 (U1; log entry 10). -/
opaque freeResult : Nat → Word

/-- Draw `n`: OUT as read while BUSY = 1 (U1; log entry 10). -/
opaque freeOut : Nat → List Byte

/-- Draw `n`: NLEAF after a reset action (U2; log entry 5). -/
opaque freeNleaf : Nat → BitVec 9

/-- Draw `n`: ROOT after a reset action (U2; log entry 5). -/
opaque freeRoot : Nat → NodeIdx

/-- Draw `n`: `NODE[k]` after a reset action, or at an index a build leaves unspecified (U2, U4; log entries 5, 6). -/
opaque freeNode : Nat → NodeIdx → Node

/-- Draw `n`: `FREQ[s]` after a reset action (U5; log entry 5). -/
opaque freeFreq : Nat → Fin 256 → Nat

end Sys2Proof.Config
end

