-- ==== Sys2Proof/Machine/State.lean ====
section
/-! DEFINITION. The state of the block and of the host agent as plain data, the ways a step can stop, and the state right
after reset (10_state.md). -/

namespace Sys2Proof.Machine

/-- The values of STATUS.ERR that the block produces (60_exceptions.md R201); 5 to 15 are never produced (V4). -/
inductive ErrCode where
  | ok
  | invalidInput
  | unknownSymbol
  | malformedCode
  | illegalCmd
  deriving DecidableEq, Repr

/-- One action of the host (10_state.md R20, 20_memory.md R51, 30_encoding.md R76, 70_reset_and_hazards.md R230). -/
inductive HostAction where
  /-- The host sets the IN sequence it presents (10_state.md R26, R36). -/
  | present (elements : List Byte)
  /-- The host presents as IN the OUT it last read (70_reset_and_hazards.md R239). -/
  | presentOut
  /-- A register write of `value`, `bytes` wide, at byte offset `offset` from BASE (20_memory.md R51, R52). -/
  | write (offset bytes : Nat) (value : Word)
  /-- A register read, `bytes` wide, at byte offset `offset` from BASE (20_memory.md R51, R52). -/
  | read (offset bytes : Nat)
  /-- The host reads OUT (10_state.md R27, 30_encoding.md R76 `read OUT`). -/
  | readOut
  /-- The host reads STATUS until BUSY = 0 (30_encoding.md R76 `poll`). -/
  | poll
  /-- The reset input is asserted (70_reset_and_hazards.md R230). -/
  | reset
  deriving DecidableEq, Repr

/-- Whose move comes next: the block's, or one action of the host (10_state.md R20; log entry 2). -/
inductive Turn where
  | block
  | host (action : HostAction)
  deriving DecidableEq, Repr

/-- The state of the block (10_state.md R23 to R37) and, below it, of the host agent and the model's own fields.
The Hamming units have none (R33). -/
structure State where
  /-- STATUS.BUSY (R24): 1 from the issue of a command to its completion. -/
  busy : Bool
  /-- STATUS.TREE_VALID (R24, R28): a HUF_BUILD has succeeded since reset. -/
  treeValid : Bool
  /-- STATUS.ERR (R24): the result code of the last completed command. -/
  err : ErrCode
  /-- CMD (R23): the latched command word (R36). -/
  cmd : Word
  /-- The captured IN of the command in progress (R26, R34, R36). -/
  captured : List Byte
  /-- RESULT (R25). -/
  result : Word
  /-- OUT (R27). -/
  out : List Byte
  /-- NLEAF (R28): the number of leaves. -/
  nleaf : BitVec 9
  /-- ROOT (R28): the index of the root in NODE. -/
  root : NodeIdx
  /-- `NODE[0..510]` (R28, R29). -/
  node : Vector Node 511
  /-- `CODE[0..255]` (R28, R30): `none` is `valid = 0`, `some bits` is `valid = 1` with `len` the length of `bits`. -/
  code : Vector (Option Bits) 256
  /-- `FREQ[0..255]` (R31): scratch of HUF_BUILD. -/
  freq : Vector Nat 256
  /-- Host agent: the IN sequence the host presents now (R26, R36). -/
  inPort : List Byte
  /-- Host agent: the coming turns; when none is left the host does nothing more (log entry 2). -/
  script : List Turn
  /-- Host agent: what its last register read returned. -/
  rdata : Word
  /-- Host agent: what its last read of OUT returned. -/
  rout : List Byte
  /-- The model's own: the number of the next free value (log entry 10). -/
  draws : Nat
  /-- The parameter MAX_IN of this machine (00_scope.md R7), an argument of the model; no step writes it (log entry 1). -/
  maxIn : Nat
  deriving DecidableEq, Repr

/-- The block never faults (60_exceptions.md R219: "The block itself never hangs and never faults"), so no step raises
a fault and there is no reason to name. -/
inductive Fault where
  deriving DecidableEq, Repr

/-- Why the model gives a host action no step (60_exceptions.md R219, F1 to F3). No command is refused. -/
inductive Refusal where
  /-- Raised by `exec` for an instruction without a meaning: none is left. Safe: no step, so nothing is claimed. -/
  | notModelled (mnemonic : String)
  /-- O1: a CMD write while BUSY = 1; raised by the host's turn. Safe: R219 gives the action no step. -/
  | cmdWriteWhileBusy
  /-- O2: an issue with `len(IN) > MAX_IN`; raised by the host's turn. Safe: R219 gives the action no step. -/
  | inputTooLong
  /-- O3: a register access that is not an aligned 32-bit one; raised by the host's turn. Safe: R52, R219 give it no step. -/
  | badAccess
  deriving DecidableEq, Repr

/-- The answer of a step or of a meaning. -/
abbrev Answer := Host.Outcome State Fault Refusal

/-- The machine right after reset with the parameter MAX_IN at `maxIn` (10_state.md R35). NLEAF, ROOT, NODE and FREQ are
unspecified at reset: the values here are log entry 4's. The host agent's fields are log entry 3's. -/
def State.resetWith (maxIn : Nat) : State where
  busy := false
  treeValid := false
  err := .ok
  cmd := 0
  captured := []
  result := 0
  out := []
  nleaf := 0
  root := 0
  node := Vector.replicate 511 (.leaf 0 0 0)
  code := Vector.replicate 256 none
  freq := Vector.replicate 256 0
  inPort := []
  script := []
  rdata := 0
  rout := []
  draws := 0
  maxIn := maxIn

/-- The machine right after reset (10_state.md R35, 70_reset_and_hazards.md R230, R232). -/
def State.reset : State := State.resetWith Config.maxIn

end Sys2Proof.Machine
end

