-- ==== Sys2Proof/Machine/Operands.lean ====
section
/-! DEFINITION. How a command reads an IN element and writes an OUT element (30_encoding.md R78, R79), and the packing of
DataBlocks and CodeBlocks (20_memory.md R55, R56). -/

namespace Sys2Proof.Machine

/-- An IN element as a Symbol: `e[7:0]` (30_encoding.md R78). -/
def symbolOf (e : Byte) : Symbol := e

/-- An IN element as a bit: `e[0]`; `e[7:1]` is ignored (30_encoding.md R78). -/
def bitOf (e : Byte) : Bool := e.getLsbD 0

/-- An IN element as a received CodeBlock: `e[6:0]`; `e[7]` is ignored (30_encoding.md R78). -/
def codeWordOf (e : Byte) : CodeBlock := e.extractLsb' 0 7

/-- A bit as an OUT element, `0x00` or `0x01` (30_encoding.md R79). -/
def bitElement (b : Bool) : Byte := if b then 0x01 else 0x00

/-- A CodeBlock as an OUT element, `zext_8(W)` (30_encoding.md R79). -/
def codeWordElement (w : CodeBlock) : Byte := w.zeroExtend 8

/-- The DataBlock `d[0..3]` packed MSB-first: `D[3] = d[0]`, ..., `D[0] = d[3]` (20_memory.md R55). -/
def packData (d0 d1 d2 d3 : Bool) : DataBlock :=
  BitVec.ofBool d0 ++ BitVec.ofBool d1 ++ BitVec.ofBool d2 ++ BitVec.ofBool d3

/-- The data bits `d[0]` to `d[3]` of a packed DataBlock, `d[0]` first (20_memory.md R55). -/
def dataBits (d : DataBlock) : Bits := [d.getLsbD 3, d.getLsbD 2, d.getLsbD 1, d.getLsbD 0]

/-- The CodeBlock `c[1..7]` packed position-1-first: `W[7-p] = c[p]` (20_memory.md R56). -/
def packCode (c1 c2 c3 c4 c5 c6 c7 : Bool) : CodeBlock :=
  BitVec.ofBool c1 ++ BitVec.ofBool c2 ++ BitVec.ofBool c3 ++ BitVec.ofBool c4 ++ BitVec.ofBool c5 ++ BitVec.ofBool c6
    ++ BitVec.ofBool c7

/-- The bit `c[p]` of a packed CodeBlock, `p` in 1..7: `W[7-p]` (20_memory.md R56). -/
def codeBit (w : CodeBlock) (p : Nat) : Bool := w.getLsbD (7 - p)

/-- The word with position `p` flipped: `W ^ (1 << (7-p))` (20_memory.md R56). -/
def flipAt (w : CodeBlock) (p : Nat) : CodeBlock := w ^^^ (1#7 <<< (7 - p))

end Sys2Proof.Machine
end

