-- ==== Sys2Proof/Machine/Flags.lean ====
section
/-! DEFINITION. The block's only flags, the fields of STATUS (10_state.md R24, 60_exceptions.md R201). -/

namespace Sys2Proof.Machine

/-- The number of a result code (60_exceptions.md R201). -/
def ErrCode.code : ErrCode → BitVec 4
  | .ok => 0
  | .invalidInput => 1
  | .unknownSymbol => 2
  | .malformedCode => 3
  | .illegalCmd => 4

/-- STATUS as a word: BUSY is bit 0, TREE_VALID bit 1, ERR bits 7:4, every other bit 0 (10_state.md R24). -/
def statusWord (busy treeValid : Bool) (err : BitVec 4) : Word :=
  0#24 ++ err ++ 0#2 ++ BitVec.ofBool treeValid ++ BitVec.ofBool busy

/-- What a read of STATUS returns. While BUSY = 1, TREE_VALID and ERR are free values (10_state.md R36, U1;
60_exceptions.md R219 O4; log entry 10). -/
def statusRead (s : State) : Word :=
  if s.busy then statusWord true (Config.freeTreeValid s.draws) (Config.freeErr s.draws)
  else statusWord false s.treeValid s.err.code

end Sys2Proof.Machine
end

