-- ==== Sys2Proof/Machine/Ops.lean ====
section
/-! DEFINITION. The shared operations: the commit of a completion and the one way a command ends in an error
(60_exceptions.md R207), the issue of a command (10_state.md R36), the reset action (70_reset_and_hazards.md R230), and
the host's register accesses (20_memory.md R51, R52, R57). -/

namespace Sys2Proof.Machine

/-! ## Completion -/

/-- The commit on success (60_exceptions.md R207): ERR is OK, RESULT and OUT are the command's, BUSY is 0 and the
captured IN is gone (10_state.md R34; log entry 11). -/
def commitOk (result : Word) (out : List Byte) (s : State) : State :=
  { s with err := .ok, result := result, out := out, busy := false, captured := [] }

/-- `raise e` (60_exceptions.md R207, R210): ERR is `e`, RESULT is 0, OUT is `[]`, BUSY is 0; the Huffman state is
unchanged. This is the one thing an error does: no trap, no saved state, no control transfer (R200, R210). -/
def commitErr (e : ErrCode) (s : State) : State :=
  { s with err := e, result := 0, out := [], busy := false, captured := [] }

/-- The Huffman state a successful HUF_BUILD commits (40_huffman.md R107): `nodes` are `Nn[0..2n-2]`. -/
structure Built where
  nodes : List Node
  root : NodeIdx
  nleaf : Nat
  code : Vector (Option Bits) 256
  freq : Vector Nat 256
  deriving DecidableEq, Repr

/-- `commit_build` (40_huffman.md R107): the whole Huffman state is replaced. `NODE[2n-1..510]` become unspecified: free
values (U4; log entry 6). FREQ holds the counts of the build (R31; log entry 8). -/
def commitBuild (b : Built) (s : State) : State :=
  { commitOk (BitVec.ofNat 32 b.nleaf) [] s with
    node := table 511 fun k => b.nodes.getD k.val (Config.freeNode s.draws k)
    root := b.root
    nleaf := BitVec.ofNat 9 b.nleaf
    code := b.code
    freq := b.freq
    treeValid := true
    draws := s.draws + 1 }

/-! ## Issue and reset -/

/-- The issue of the command word `w` (10_state.md R36): `w` is latched, the presented IN is captured, BUSY is 1. -/
def issue (w : Word) (s : State) : State :=
  { s with cmd := w, captured := s.inPort, busy := true }

/-- The reset input (70_reset_and_hazards.md R230, R231; 10_state.md R35). A command in progress is cancelled.
NLEAF, ROOT, NODE and FREQ take free values (log entry 5). The host agent keeps its own state. -/
def applyReset (s : State) : State :=
  { s with
    busy := false
    treeValid := false
    err := .ok
    cmd := 0
    captured := []
    result := 0
    out := []
    nleaf := Config.freeNleaf s.draws
    root := Config.freeRoot s.draws
    node := table 511 (Config.freeNode s.draws)
    code := Vector.replicate 256 none
    freq := table 256 (Config.freeFreq s.draws)
    draws := s.draws + 1 }

/-! ## The host's register window (20_memory.md R51) -/

/-- Byte offset of CMD. -/
def cmdOffset : Nat := 0x00

/-- Byte offset of STATUS. -/
def statusOffset : Nat := 0x04

/-- Byte offset of RESULT. -/
def resultOffset : Nat := 0x08

/-- One aligned 32-bit access (20_memory.md R52). -/
def accessOk (offset bytes : Nat) : Bool := bytes == 4 && offset % 4 == 0

/-- What a read of the register at `offset` returns: CMD and the reserved offsets read 0; RESULT while BUSY = 1 is a
free value (20_memory.md R51, 10_state.md R23 to R25, R36; log entry 10). -/
def registerRead (offset : Nat) (s : State) : Word :=
  if offset = statusOffset then statusRead s
  else if offset = resultOffset then (if s.busy then Config.freeResult s.draws else s.result)
  else 0

/-- What a read of OUT returns; while BUSY = 1 a free value (10_state.md R27, R36; log entry 10). -/
def outRead (s : State) : List Byte := if s.busy then Config.freeOut s.draws else s.out

/-- The number of the next free value after a read: each read while BUSY = 1 draws afresh (U1; log entry 10). -/
def drawsAfterRead (s : State) : Nat := if s.busy then s.draws + 1 else s.draws

/-- The host reads the register at `offset` (20_memory.md R57: a read has no side effect on the block). -/
def readRegister (offset : Nat) (s : State) : State :=
  { s with rdata := registerRead offset s, draws := drawsAfterRead s }

/-- The host reads OUT (10_state.md R27). -/
def readOut (s : State) : State :=
  { s with rout := outRead s, draws := drawsAfterRead s }

/-- A host register write. A CMD write issues a command (10_state.md R23, R36); writes elsewhere are ignored
(20_memory.md R57); a broken host obligation is refused (60_exceptions.md R219 O1 to O3; log entry 13). -/
def busWrite (offset bytes : Nat) (value : Word) (s : State) : Answer :=
  if !accessOk offset bytes then .refused .badAccess
  else if offset = cmdOffset then
    if s.busy then .refused .cmdWriteWhileBusy
    else if s.maxIn < s.inPort.length then .refused .inputTooLong
    else .next (issue value s)
  else .next s

/-- A host register read (20_memory.md R51, R57); a broken host obligation is refused (60_exceptions.md R219 O3). A read
while BUSY = 1 is not refused (O4). -/
def busRead (offset bytes : Nat) (s : State) : Answer :=
  if !accessOk offset bytes then .refused .badAccess
  else .next (readRegister offset s)

/-! ## A word placed where the block takes its next command -/

/-- `w` latched with the captured IN as it stands, BUSY = 1, and the next turn the block's, so that the very next step
completes `w` (log entry 14). -/
def latchWord (w : Word) (s : State) : State :=
  { s with cmd := w, busy := true, script := .block :: s.script }

end Sys2Proof.Machine
end

