-- ==== Sys2Proof/Machine/Hamming.lean ====
section
/-! DEFINITION. The Hamming(7,4) commands (41_hamming.md): hamming_encoder and hamming_decoder_corrector. -/

namespace Sys2Proof.Machine

/-! ## The block code -/

/-- `generate(D)` (41_hamming.md R154): data at positions 3, 5, 6, 7 (R151), even parity at 1, 2, 4 (R152). -/
def generate (d : DataBlock) : CodeBlock :=
  let c3 := d.getLsbD 3
  let c5 := d.getLsbD 2
  let c6 := d.getLsbD 1
  let c7 := d.getLsbD 0
  let c1 := c3 ^^ c5 ^^ c7
  let c2 := c3 ^^ c6 ^^ c7
  let c4 := c5 ^^ c6 ^^ c7
  packCode c1 c2 c3 c4 c5 c6 c7

/-- `s1 = c[1] ^ c[3] ^ c[5] ^ c[7]` (41_hamming.md R153). -/
def syndrome1 (w : CodeBlock) : Bool := codeBit w 1 ^^ codeBit w 3 ^^ codeBit w 5 ^^ codeBit w 7

/-- `s2 = c[2] ^ c[3] ^ c[6] ^ c[7]` (41_hamming.md R153). -/
def syndrome2 (w : CodeBlock) : Bool := codeBit w 2 ^^ codeBit w 3 ^^ codeBit w 6 ^^ codeBit w 7

/-- `s4 = c[4] ^ c[5] ^ c[6] ^ c[7]` (41_hamming.md R153). -/
def syndrome4 (w : CodeBlock) : Bool := codeBit w 4 ^^ codeBit w 5 ^^ codeBit w 6 ^^ codeBit w 7

/-- `POS = s1 + 2*s2 + 4*s4`, in 0..7 (41_hamming.md R153). -/
def errorPosition (w : CodeBlock) : Pos :=
  BitVec.ofNat 3 ((syndrome1 w).toNat + 2 * (syndrome2 w).toNat + 4 * (syndrome4 w).toNat)

/-- The data bits of a code word, from positions 3, 5, 6, 7 (41_hamming.md R151, R155). -/
def extractData (w : CodeBlock) : DataBlock := packData (codeBit w 3) (codeBit w 5) (codeBit w 6) (codeBit w 7)

/-- `correct(W)` (41_hamming.md R155): the named position is flipped, then the data are extracted. -/
def correct (w : CodeBlock) : DataBlock × Pos :=
  let pos := errorPosition w
  (extractData (if pos = 0 then w else flipAt w pos.toNat), pos)

/-- `POS << 4 | D` as a word (41_hamming.md R155, 30_encoding.md R79). -/
def correctResult (dp : DataBlock × Pos) : Word := 0#25 ++ dp.2 ++ dp.1

/-! ## Streams -/

/-- The blocks of a bit stream: groups of 4, the last one zero-padded on the right (41_hamming.md R156). -/
def dataBlocks : Bits → List DataBlock
  | [] => []
  | [a] => [packData a false false false]
  | [a, b] => [packData a b false false]
  | [a, b, c] => [packData a b c false]
  | a :: b :: c :: d :: rest => packData a b c d :: dataBlocks rest

/-- The corrected data bits of the received blocks, in order, `d[0]` first; POS is discarded (41_hamming.md R157). -/
def correctedBits (words : List CodeBlock) : Bits := words.flatMap fun w => dataBits (correct w).1

/-! ## The commands -/

/-- HAM_GENERATE (41_hamming.md R154). -/
def execHamGenerate (data4 : DataBlock) (s : State) : Answer :=
  .next (commitOk ((generate data4).zeroExtend 32) [] s)

/-- HAM_CORRECT (41_hamming.md R155). -/
def execHamCorrect (cw7 : CodeBlock) (s : State) : Answer :=
  .next (commitOk (correctResult (correct cw7)) [] s)

/-- HAM_ENCODE_STREAM (41_hamming.md R156). -/
def execHamEncodeStream (s : State) : Answer :=
  let out := (dataBlocks (s.captured.map bitOf)).map fun d => codeWordElement (generate d)
  .next (commitOk (BitVec.ofNat 32 out.length) out s)

/-- HAM_DECODE_STREAM (41_hamming.md R157); INVALID_INPUT when `LEN24 > 4*m` (60_exceptions.md R202). -/
def execHamDecodeStream (len24 : BitVec 24) (s : State) : Answer :=
  if 4 * s.captured.length < len24.toNat then .next (commitErr .invalidInput s)
  else
    let bits := correctedBits (s.captured.map codeWordOf)
    .next (commitOk (len24.zeroExtend 32) ((bits.take len24.toNat).map bitElement) s)

end Sys2Proof.Machine
end

