-- ==== Sys2Proof/Machine/HuffmanTree.lean ====
section
/-! DEFINITION. The algorithm of HUF_BUILD (40_huffman.md R102 to R106), the code lookup of HUF_ENCODE (R108) and the tree
walk of HUF_DECODE (R109), as plain functions. -/

namespace Sys2Proof.Machine

/-! ## Counting and seeding -/

/-- `count(IN)` (40_huffman.md R102): `F[s]` is the number of occurrences of `s` in the text. -/
def countSymbols (text : List Symbol) : Vector Nat 256 := table 256 fun s => text.count (BitVec.ofFin s)

/-- The leaves of the symbols `s`, `s + 1`, ... with the listed counts: one for each positive count, numbered from `n`
(40_huffman.md R103). -/
def seedFrom : List Nat → Nat → Nat → List Node
  | [], _, _ => []
  | count :: counts, s, n =>
    if 0 < count then .leaf (BitVec.ofNat 8 s) count (Fin.ofNat 511 n) :: seedFrom counts (s + 1) (n + 1)
    else seedFrom counts (s + 1) n

/-- `seed(F)` (40_huffman.md R103): one leaf per symbol that occurs, in ascending order of symbol value. -/
def seed (freq : Vector Nat 256) : List Node := seedFrom freq.toList 0 0

/-! ## Combining -/

/-- The order of extraction (40_huffman.md R104): least weight first, then least seq. -/
def keyLt (a b : Node) : Bool := a.weight < b.weight || (a.weight == b.weight && a.seq < b.seq)

/-- The least node of a non-empty collection, and the others (40_huffman.md R104). A collection is a list of nodes in no
particular order; a node's index is its `seq` (R103, R104). -/
def extractLeast : Node → List Node → Node × List Node
  | x, [] => (x, [])
  | x, y :: ys =>
    match extractLeast y ys with
    | (m, rest) => if keyLt x m then (x, m :: rest) else (m, x :: rest)

/-- The internal nodes that combining creates from the collection, in order of creation, the first with index `next`
(40_huffman.md R104): the first node extracted becomes the left child, the second the right. `fuel` bounds the number of
merges; `n - 1` merges empty a collection of `n` down to the root. -/
def combine : Nat → Nat → List Node → List Node
  | 0, _, _ => []
  | fuel + 1, next, q =>
    match q with
    | [] => []
    | x :: xs =>
      match extractLeast x xs with
      | (_, []) => []
      | (a, y :: ys) =>
        match extractLeast y ys with
        | (b, rest) =>
          let merged := .internal (a.weight + b.weight) a.seq b.seq (Fin.ofNat 511 next)
          merged :: combine fuel (next + 1) (merged :: rest)

/-! ## Codes -/

/-- `walk(k, path)` (40_huffman.md R106): the symbol and path of every leaf below node `k`. `fuel` bounds the depth. -/
def walk (nodes : List Node) : Nat → NodeIdx → Bits → List (Symbol × Bits)
  | 0, _, _ => []
  | fuel + 1, k, path =>
    match nodes[k.val]? with
    | none => []
    | some (.leaf sym _ _) => [(sym, path)]
    | some (.internal _ left right _) =>
      walk nodes fuel left (path ++ [false]) ++ walk nodes fuel right (path ++ [true])

/-- The code table with the listed entries; every other symbol has `valid = 0` (40_huffman.md R105, R106). -/
def codeTableOf (codes : List (Symbol × Bits)) : Vector (Option Bits) 256 :=
  table 256 fun s => codes.lookup (BitVec.ofFin s)

/-- `single(Nn)` (40_huffman.md R105): the one symbol's code is the 1-bit string `"0"`. -/
def singleCode : List Node → List (Symbol × Bits)
  | .leaf sym _ _ :: _ => [(sym, [false])]
  | _ => []

/-- HUF_BUILD's tree and code table from a non-empty text (40_huffman.md R101 to R106). A tree of `n <= 256` leaves is at
most 255 deep (R113), so fuel 256 reaches every leaf. -/
def buildTree (text : List Symbol) : Built :=
  let freq := countSymbols text
  let leaves := seed freq
  let n := leaves.length
  if n = 1 then
    { nodes := leaves, root := 0, nleaf := n, code := codeTableOf (singleCode leaves), freq := freq }
  else
    let nodes := leaves ++ combine (n - 1) n leaves
    let root := Fin.ofNat 511 (2 * n - 2)
    { nodes := nodes, root := root, nleaf := n, code := codeTableOf (walk nodes 256 root []), freq := freq }

/-! ## Lookup and tree walk -/

/-- The concatenated codes of a text, or `none` where a symbol has no code (40_huffman.md R108). -/
def encodeText (code : Vector (Option Bits) 256) : List Symbol → Option Bits
  | [] => some []
  | s :: ss =>
    match atSym code s, encodeText code ss with
    | some bits, some rest => some (bits ++ rest)
    | _, _ => none

/-- Decoding with a tree whose root is a leaf of `sym` (40_huffman.md R109): a 0 bit is the symbol, a 1 bit is
malformed. -/
def decodeSingle (sym : Symbol) : Bits → Option (List Symbol)
  | [] => some []
  | true :: _ => none
  | false :: bs => (decodeSingle sym bs).map (sym :: ·)

/-- The child of a node on a bit: 0 is left, 1 is right (40_huffman.md R109). A leaf has no child; the walk is never at
one, since it restarts from the root at each leaf. -/
def childOf (nd : Node) (b : Bool) : Option NodeIdx :=
  match nd with
  | .leaf _ _ _ => none
  | .internal _ left right _ => some (if b then right else left)

/-- The tree walk of HUF_DECODE from `cur` (40_huffman.md R109); `none` is MALFORMED_CODE: the input ended inside a
code. -/
def decodeFrom (node : Vector Node 511) (root : NodeIdx) : NodeIdx → Bits → Option (List Symbol)
  | cur, [] => if cur = root then some [] else none
  | cur, b :: bs =>
    match childOf node[cur] b with
    | none => none
    | some next =>
      match node[next] with
      | .leaf sym _ _ => (decodeFrom node root root bs).map (sym :: ·)
      | .internal _ _ _ _ => decodeFrom node root next bs

/-- HUF_DECODE of a non-empty bit sequence with a stored tree (40_huffman.md R109). -/
def decodeBits (node : Vector Node 511) (root : NodeIdx) (bits : Bits) : Option (List Symbol) :=
  match node[root] with
  | .leaf sym _ _ => decodeSingle sym bits
  | .internal _ _ _ _ => decodeFrom node root root bits

end Sys2Proof.Machine
end

