-- ==== Sys2Proof/Machine/Huffman.lean ====
section
/-! DEFINITION. The Huffman commands (40_huffman.md): huffman_encoder and huffman_decoder. -/

namespace Sys2Proof.Machine

/-- HUF_BUILD (40_huffman.md R101): INVALID_INPUT on an empty text; otherwise the whole Huffman state is replaced and
RESULT is the number of distinct symbols. -/
def execHufBuild (s : State) : Answer :=
  if s.captured = [] then .next (commitErr .invalidInput s)
  else .next (commitBuild (buildTree (s.captured.map symbolOf)) s)

/-- HUF_ENCODE (40_huffman.md R108): UNKNOWN_SYMBOL where a symbol of IN has no code. -/
def execHufEncode (s : State) : Answer :=
  match encodeText s.code (s.captured.map symbolOf) with
  | none => .next (commitErr .unknownSymbol s)
  | some bits => .next (commitOk (BitVec.ofNat 32 bits.length) (bits.map bitElement) s)

/-- HUF_DECODE (40_huffman.md R109): an empty IN gives `[]` with or without a tree; a non-empty one without a tree, or
one that does not end exactly at a leaf, gives MALFORMED_CODE. -/
def execHufDecode (s : State) : Answer :=
  if s.captured = [] then .next (commitOk 0 [] s)
  else if !s.treeValid then .next (commitErr .malformedCode s)
  else
    match decodeBits s.node s.root (s.captured.map bitOf) with
    | none => .next (commitErr .malformedCode s)
    | some text => .next (commitOk (BitVec.ofNat 32 text.length) text s)

end Sys2Proof.Machine
end

