-- ==== Sys2Proof/Machine/Dispatch.lean ====
section
/-! DEFINITION. One arm per command: the completion of a decoded command (10_state.md R37) on the state as it stood at
issue. -/

namespace Sys2Proof.Machine

def exec (i : Instr) (s : State) : Host.Outcome State Fault Refusal :=
  match i with
  | .hufBuild => Sys2Proof.Machine.execHufBuild s
  | .hufEncode => Sys2Proof.Machine.execHufEncode s
  | .hufDecode => Sys2Proof.Machine.execHufDecode s
  | .hamGenerate data4 => Sys2Proof.Machine.execHamGenerate data4 s
  | .hamCorrect cw7 => Sys2Proof.Machine.execHamCorrect cw7 s
  | .hamEncodeStream => Sys2Proof.Machine.execHamEncodeStream s
  | .hamDecodeStream len24 => Sys2Proof.Machine.execHamDecodeStream len24 s

end Sys2Proof.Machine
end

