-- ==== Sys2Proof/Machine/Turns.lean ====
section
/-! DEFINITION. One turn of the block or of the host (10_state.md R20, R36, R37; log entry 2), and a program of command
lines as turns (30_encoding.md R76). -/

namespace Sys2Proof.Machine

/-- Completion (10_state.md R37): the latched word is decoded and its rule evaluated; a word that is no command ends with
ILLEGAL_CMD before IN or any state is read (30_encoding.md R73, 60_exceptions.md R205, R208). -/
def complete (s : State) : Answer :=
  match decode s.cmd with
  | .error _ => .next (commitErr .illegalCmd s)
  | .ok i => exec i s

/-- The block's turn: it completes the command in progress; idle, it does nothing (60_exceptions.md R218). -/
def blockTurn (s : State) : Answer := if s.busy then complete s else .next s

/-- The host's turn, with `rest` the turns after it. A `poll` while BUSY = 1 stays, and the turn is the block's: the host
reads STATUS again until BUSY = 0 (30_encoding.md R76; 70_reset_and_hazards.md R241; log entry 2). -/
def hostTurn (a : HostAction) (rest : List Turn) (s : State) : Answer :=
  match a with
  | .present elements => .next { s with inPort := elements, script := rest }
  | .presentOut => .next { s with inPort := s.rout, script := rest }
  | .write offset bytes value => busWrite offset bytes value { s with script := rest }
  | .read offset bytes => busRead offset bytes { s with script := rest }
  | .readOut => .next (readOut { s with script := rest })
  | .poll => if s.busy then complete s else .next (readRegister statusOffset { s with script := rest })
  | .reset => .next (applyReset { s with script := rest })

/-- The next turn. With no turn left, a command in progress completes: every issued command completes
(70_reset_and_hazards.md R241). -/
def nextTurn (s : State) : Answer :=
  match s.script with
  | [] => blockTurn s
  | .block :: rest => blockTurn { s with script := rest }
  | .host a :: rest => hostTurn a rest s

/-- A host command line as turns: present IN, write CMD, poll (30_encoding.md R76). -/
def turnsOf (c : HostCommand) : List Turn :=
  [.host (.present c.expand.2), .host (.write cmdOffset 4 (encode c.expand.1)), .host .poll]

end Sys2Proof.Machine
end

