-- ==== Sys2Proof/Machine/Step.lean ====
section
/-! DEFINITION. One step: the next turn of the host or of the block. -/

namespace Sys2Proof.Machine

/-- One step of host and block (10_state.md R20, R36, R37). -/
def step (s : State) : Host.Outcome State Fault Refusal := nextTurn s

/-- `s` with the command word `w` (bits above `nbits` zero) latched and the next turn the block's, so that the very next
step completes it (log entry 14). -/
def State.withFetchWord (s : State) (nbits w : Nat) : State := latchWord (BitVec.ofNat 32 (w % 2 ^ nbits)) s

end Sys2Proof.Machine
end

