-- ==== Sys2Proof/Safety.lean ====
section
/-! DEFINITION. What a safe run keeps (the state invariant of the block) and the terms the claims use. -/

namespace Sys2Proof.Machine

/-! ## The end of a command -/

/-- `s` after a completion with result code `e`, RESULT `r` and OUT `o` and nothing else changed: BUSY is 0 and the
captured IN is gone (60_exceptions.md R207, 10_state.md R34). -/
def State.completed (s : State) (e : ErrCode) (r : Word) (o : List Byte) : State :=
  { s with err := e, result := r, out := o, busy := false, captured := [] }

/-- The Huffman state of 10_state.md R28 is the same in both. -/
def SameHuffman (s t : State) : Prop :=
  t.treeValid = s.treeValid ∧ t.nleaf = s.nleaf ∧ t.root = s.root ∧ t.node = s.node ∧ t.code = s.code

/-- The host agent's fields, and the parameter MAX_IN, are the same in both. -/
def SameHostAgent (s t : State) : Prop :=
  t.inPort = s.inPort ∧ t.script = s.script ∧ t.rdata = s.rdata ∧ t.rout = s.rout ∧ t.maxIn = s.maxIn

/-- Whether the next turn is the block's: it is its own, or no turn is left, or the host polls (log entry 2). -/
def BlockTurn (s : State) : Prop :=
  s.script = [] ∨ (∃ rest, s.script = .block :: rest) ∨ ∃ rest, s.script = .host .poll :: rest

/-- `s` with a block turn at the head of the script taken off. -/
def State.afterBlockTurn (s : State) : State :=
  match s.script with
  | .block :: rest => { s with script := rest }
  | _ => s

/-- The word selects the command's row, `(w & mask) = match`, and the operands are its ARG fields
(30_encoding.md R71, R72). -/
def Selects (w : Word) (i : Instr) : Prop :=
  w &&& (rowOf i).2 = (rowOf i).1 ∧
    match i with
    | .hamGenerate d => d.toNat = w.toNat / 256 % 16
    | .hamCorrect c => c.toNat = w.toNat / 256 % 128
    | .hamDecodeStream l => l.toNat = w.toNat / 256
    | _ => True

/-- The illegal words as 30_encoding.md R74 lists them: OP 0x0, OP 0x8 to 0xF, RSV not 0, or a bit of the must-be-0 part
of ARG. -/
def IllegalWord (w : Word) : Prop :=
  let op := w.toNat % 16
  op = 0 ∨ 8 ≤ op ∨ w.toNat / 16 % 16 ≠ 0 ∨
    ((op = 1 ∨ op = 2 ∨ op = 3 ∨ op = 6) ∧ w.toNat / 256 ≠ 0) ∨
    (op = 4 ∧ w.toNat / 4096 ≠ 0) ∨ (op = 5 ∧ w.toNat / 32768 ≠ 0)

/-! ## Trees -/

/-- The symbols of a text, each once, in ascending order. -/
def symbolsOf (text : List Symbol) : List Symbol :=
  ((List.range 256).map (BitVec.ofNat 8)).filter fun a => decide (a ∈ text)

/-- The node reached from `k` along `path`: 0 is left, 1 is right (10_state.md R32, 40_huffman.md R106). -/
def follow (node : Vector Node 511) : NodeIdx → Bits → Option NodeIdx
  | k, [] => some k
  | k, b :: bs =>
    match node[k] with
    | .leaf _ _ _ => none
    | .internal _ left right _ => follow node (if b then right else left) bs

/-- `node[k]` is an internal node with `j` as a child. -/
def IsParent (node : Vector Node 511) (k j : NodeIdx) : Prop :=
  ∃ weight left right seq, node[k] = .internal weight left right seq ∧ (left = j ∨ right = j)

/-- `node[k]` is a leaf of the symbol `a`. -/
def IsLeafOf (node : Vector Node 511) (k : NodeIdx) (a : Symbol) : Prop :=
  ∃ weight seq, node[k] = .leaf a weight seq

/-- What 10_state.md R32 says of the Huffman state when TREE_VALID = 1, points 1 to 5, with `n = NLEAF`. Acyclicity is
said by the children of a node lying below it in the arena. -/
structure BuiltTree (s : State) : Prop where
  /-- `NLEAF` is 1..256. -/
  leafCount : 1 ≤ s.nleaf.toNat ∧ s.nleaf.toNat ≤ 256
  /-- `ROOT = 2*NLEAF - 2`. -/
  rootIndex : s.root.val = 2 * s.nleaf.toNat - 2
  /-- The leaves are `NODE[0..NLEAF-1]`. -/
  leaves : ∀ k : NodeIdx, k.val < s.nleaf.toNat → ∃ a weight, s.node[k] = .leaf a weight k
  /-- The leaves have distinct symbols in ascending order. -/
  ascending : ∀ j k : NodeIdx, ∀ a b : Symbol, j < k → k.val < s.nleaf.toNat →
    IsLeafOf s.node j a → IsLeafOf s.node k b → a < b
  /-- The internal nodes are `NODE[NLEAF..2*NLEAF-2]`: two different children, created earlier; the weight is their sum. -/
  internals : ∀ k : NodeIdx, s.nleaf.toNat ≤ k.val → k.val < 2 * s.nleaf.toNat - 1 →
    ∃ left right, left < k ∧ right < k ∧ left ≠ right ∧
      s.node[k] = .internal (s.node[left].weight + s.node[right].weight) left right k
  /-- Every node other than the root is the child of exactly one internal node. -/
  oneParent : ∀ j : NodeIdx, j.val < 2 * s.nleaf.toNat - 2 →
    ∃ k : NodeIdx, k.val < 2 * s.nleaf.toNat - 1 ∧ IsParent s.node k j ∧
      ∀ m : NodeIdx, m.val < 2 * s.nleaf.toNat - 1 → IsParent s.node m j → m = k
  /-- `CODE[a].valid = 1` exactly for the symbols of the leaves. -/
  validCodes : ∀ a : Symbol, (atSym s.code a).isSome = true ↔
    ∃ k : NodeIdx, k.val < s.nleaf.toNat ∧ IsLeafOf s.node k a
  /-- For two leaves or more, a code is the path from ROOT to its symbol's leaf. -/
  codePaths : 2 ≤ s.nleaf.toNat → ∀ a bits, atSym s.code a = some bits →
    ∃ k : NodeIdx, k.val < s.nleaf.toNat ∧ IsLeafOf s.node k a ∧ follow s.node s.root bits = some k
  /-- For one leaf, the code is `"0"`. -/
  singleCode : s.nleaf.toNat = 1 → ∀ a bits, atSym s.code a = some bits → bits = [false]

/-- The Huffman invariant of 10_state.md R32: a built tree, or no valid code at all. -/
def TreeInv (s : State) : Prop :=
  (s.treeValid = true → BuiltTree s) ∧ (s.treeValid = false → ∀ a, atSym s.code a = none)

/-- The state invariant of the block: MAX_IN is in its range (00_scope.md R7), the captured IN is within it and gone
when no command runs (10_state.md R26, R34, R36), OUT is within its bound (R27), and the Huffman invariant (R32). -/
structure Inv (s : State) : Prop where
  maxInRange : 1 ≤ s.maxIn ∧ s.maxIn ≤ 2 ^ 24 - 1
  inputBound : s.captured.length ≤ s.maxIn
  idleEmpty : s.busy = false → s.captured = []
  outputBound : s.out.length ≤ 255 * s.maxIn
  tree : TreeInv s

/-- `j` is in the collection when node `k` is made: created before `k` and not yet a child (40_huffman.md R104), for a
build of `n` leaves. -/
def InCollection (node : Vector Node 511) (n : Nat) (k j : NodeIdx) : Prop :=
  j < k ∧ ∀ m : NodeIdx, n ≤ m.val → m < k → ¬ IsParent node m j

/-- The order of extraction on nodes (40_huffman.md R104): least weight first, on a tie least creation number. -/
def ExtractedBefore (node : Vector Node 511) (a b : NodeIdx) : Prop :=
  node[a].weight < node[b].weight ∨ (node[a].weight = node[b].weight ∧ a < b)

/-- Every symbol of the text has a code. -/
def AllCoded (s : State) (text : List Symbol) : Prop := ∀ a ∈ text, (atSym s.code a).isSome = true

/-- The concatenated codes of a text in the stored code table (40_huffman.md R108). -/
def codesOf (s : State) (text : List Symbol) : Bits := text.flatMap fun a => (atSym s.code a).getD []

/-- The bit sequence ends part-way down a root-to-leaf path: codes of coded symbols, then a non-empty rest that leads from
the root to an internal node (40_huffman.md R109, 60_exceptions.md R204). -/
def EndsInsideACode (s : State) (bits : Bits) : Prop :=
  ∃ (text : List Symbol) (rest : Bits) (k : NodeIdx), AllCoded s text ∧ bits = codesOf s text ++ rest ∧ rest ≠ [] ∧
    follow s.node s.root rest = some k ∧ s.node[k].isLeaf = false

/-! ## Channels -/

/-- `r` is `w` with at most one of its 7 bits flipped, in the low 7 bits of an element (41_hamming.md R159, R161). -/
def AtMostOneFlip (w r : Byte) : Prop :=
  codeWordOf r = codeWordOf w ∨ ∃ p, 1 ≤ p ∧ p ≤ 7 ∧ codeWordOf r = flipAt (codeWordOf w) p

/-- The Hamming commands (30_encoding.md R80). -/
def isHammingCommand : Instr → Bool
  | .hufBuild | .hufEncode | .hufDecode => false
  | .hamGenerate _ | .hamCorrect _ | .hamEncodeStream | .hamDecodeStream _ => true

end Sys2Proof.Machine
end

