-- ==== Sys2Proof/WellFormed.lean ====
section
/-! DEFINITION. The static checks of a command line (30_encoding.md R76). An `Instr` has no ill-formed term: its operand
widths are in its types (R71). -/

namespace Sys2Proof

/-- The operand ranges of 30_encoding.md R76 (`<text>`, `<data4>`, `<cw7>`, `<len24>`, `<cwlist>`) and R77 (`<sym>`). -/
def HostCommand.wellFormed : HostCommand → Bool
  | .hufBuild text => text.all (· < 256)
  | .hufEncode text => text.all (· < 256)
  | .hufDecode _ => true
  | .hamGenerate data4 => data4 < 16
  | .hamCorrect cw7 => cw7 < 128
  | .hamEncodeStream _ => true
  | .hamDecodeStream len24 cwlist => len24 < 16777216 && cwlist.all (· < 128)
  | .hufLookup sym => sym < 256

end Sys2Proof
end

