-- ==== Sys2Proof/Certificates/Slice0/Obligations.lean ====
section
/-! DEFINITION. The statements for the provers. Each docstring names the rules of spec/ it formalises. -/

open Sys2Proof Sys2Proof.Machine

/-! ## Encoding -/

/-- Words of 95_test_vectors.md section 2.4, written out from 30_encoding.md R72, decode as that table says. -/
def Obligations.WrittenOutWordsDecode : Prop :=
  decode 0b00000000000000000000000000000001#32 = .ok .hufBuild ∧
  decode 0b00000000000000000000000000000010#32 = .ok .hufEncode ∧
  decode 0b00000000000000000000000000000011#32 = .ok .hufDecode ∧
  decode 0b00000000000000000000101100000100#32 = .ok (.hamGenerate 0xB) ∧
  decode 0b00000000000000000111001100000101#32 = .ok (.hamCorrect 0x73) ∧
  decode 0b00000000000000000000000000000110#32 = .ok .hamEncodeStream ∧
  decode 0b00000000000000000000011000000111#32 = .ok (.hamDecodeStream 6) ∧
  decode 0x00000000 = .error .reservedOpcode ∧
  decode 0x00000017 = .error .reservedBits ∧
  decode 0x80000001 = .error .argBits

/-- Decode of encode is the instruction, for every instruction and every operand value (30_encoding.md R70 to R72). -/
def Obligations.DecodeOfEncodeIsTheInstruction : Prop :=
  ∀ i : Instr, decode (encode i) = .ok i

/-- Encode of decode is the word: every legal word has one meaning and no bit of it is dropped (30_encoding.md R71, R72). -/
def Obligations.EncodeOfDecodeIsTheWord : Prop :=
  ∀ (w : Word) (i : Instr), decode w = .ok i → encode i = w

/-- 30_encoding.md R73: decode picks the row with `(w & mask) = match`; at most one row matches; with no row, the command
ends with ILLEGAL_CMD, whatever IN and the Huffman state are. -/
def Obligations.DecodePicksTheOneMatchingRow : Prop :=
  (∀ (w : Word) (i : Instr), decode w = .ok i ↔ Selects w i) ∧
  (∀ (w : Word) (i j : Instr), w &&& (rowOf i).2 = (rowOf i).1 → w &&& (rowOf j).2 = (rowOf j).1 →
    rowOf i = rowOf j) ∧
  (∀ s : State, s.busy = true → BlockTurn s → (∀ i, s.cmd &&& (rowOf i).2 ≠ (rowOf i).1) →
    step s = .next (s.afterBlockTurn.completed .illegalCmd 0 []))

/-- 30_encoding.md R74: the listed words all end with ILLEGAL_CMD, and no other word does. -/
def Obligations.IllegalEncodingsEndWithIllegalCmd : Prop :=
  (∀ s : State, s.busy = true → BlockTurn s → IllegalWord s.cmd →
    step s = .next (s.afterBlockTurn.completed .illegalCmd 0 [])) ∧
  (∀ w : Word, ¬ IllegalWord w → ∃ i, decode w = .ok i) ∧
  (∀ (i : Instr) (s : State), ∃ t, exec i s = .next t ∧ t.err ≠ .illegalCmd)

/-! ## The step: completion, errors, host and block -/

/-- When the latched word decodes to `i`, the block's turn is `exec i` on the state with that turn taken off
(10_state.md R37). -/
def Obligations.BlockTurnRunsTheDecodedCommand : Prop :=
  ∀ (s : State) (i : Instr), s.busy = true → BlockTurn s → decode s.cmd = .ok i →
    step s = exec i s.afterBlockTurn

/-- 60_exceptions.md R207: a completion clears BUSY; on an error only ERR, RESULT = 0 and OUT = [] change; on success ERR
is OK and only HUF_BUILD changes the Huffman state. -/
def Obligations.CompletionCommitsAtomically : Prop :=
  ∀ s : State, s.busy = true → BlockTurn s → ∃ t, step s = .next t ∧ t.busy = false ∧
    (t.err ≠ .ok → t = s.afterBlockTurn.completed t.err 0 []) ∧
    (t.err = .ok → ∃ i, decode s.cmd = .ok i ∧
      (i ≠ .hufBuild → t = s.afterBlockTurn.completed .ok t.result t.out))

/-- What every command leaves unchanged: CMD and the host agent always; the Huffman state, FREQ and the draw counter for
every command but HUF_BUILD (60_exceptions.md R207, 10_state.md R28). That CMD keeps the latched word is the model's choice
(log entry 11), and so are the clauses on FREQ and the draw counter (log entries 8, 10). -/
def Obligations.CommandsLeaveTheRestUnchanged : Prop :=
  ∀ (i : Instr) (s : State), ∃ t, exec i s = .next t ∧ t.cmd = s.cmd ∧ SameHostAgent s t ∧
    (i ≠ .hufBuild → SameHuffman s t ∧ t.freq = s.freq ∧ t.draws = s.draws)

/-- 60_exceptions.md R202: INVALID_INPUT has two causes, and no other command raises it. -/
def Obligations.InvalidInputHasTwoCauses : Prop :=
  ∀ (i : Instr) (s : State), ∃ t, exec i s = .next t ∧
    (t.err = .invalidInput ↔
      (i = .hufBuild ∧ s.captured.length = 0) ∨
      ∃ len24, i = .hamDecodeStream len24 ∧ 4 * s.captured.length < len24.toNat)

/-- 60_exceptions.md R203: UNKNOWN_SYMBOL is raised by HUF_ENCODE exactly when a symbol of IN has no code; every non-empty
HUF_ENCODE before any successful build is such a case, right after a reset among them. -/
def Obligations.UnknownSymbolExactlyWhenNoCode : Prop :=
  (∀ (i : Instr) (s : State), ∃ t, exec i s = .next t ∧
    (t.err = .unknownSymbol ↔ i = .hufEncode ∧ ∃ a ∈ s.captured, atSym s.code a = none)) ∧
  (∀ s : State, TreeInv s → s.treeValid = false → s.captured ≠ [] →
    exec .hufEncode s = .next (s.completed .unknownSymbol 0 [])) ∧
  (∀ (s : State) (rest : List Turn) (text : List Byte), s.script = .host .reset :: rest → text ≠ [] →
    ∃ t, step s = .next t ∧
      exec .hufEncode { t with captured := text } =
        .next (State.completed { t with captured := text } .unknownSymbol 0 []))

/-- 60_exceptions.md R204: MALFORMED_CODE is raised by HUF_DECODE in three cases, and by no other command: IN ends inside a
code, a 1 bit arrives for a single-leaf tree, or IN is not empty and no tree is valid. -/
def Obligations.MalformedCodeHasThreeCauses : Prop :=
  ∀ (i : Instr) (s : State), TreeInv s → ∃ t, exec i s = .next t ∧
    (t.err = .malformedCode ↔ i = .hufDecode ∧
      ((s.treeValid = true ∧ EndsInsideACode s (s.captured.map fun e => e.getLsbD 0)) ∨
        (s.treeValid = true ∧ (∃ a, IsLeafOf s.node s.root a) ∧ ∃ e ∈ s.captured, e.getLsbD 0 = true) ∨
        (s.captured ≠ [] ∧ s.treeValid = false)))

/-- 10_state.md R36: a CMD write in an idle block with `len(IN) <= MAX_IN` latches the word, captures IN and sets BUSY,
and changes nothing else of the block. -/
def Obligations.CmdWriteIssuesTheCommand : Prop :=
  ∀ (s : State) (rest : List Turn) (w : Word), s.script = .host (.write 0 4 w) :: rest → s.busy = false →
    s.inPort.length ≤ s.maxIn →
    step s = .next { s with script := rest, cmd := w, captured := s.inPort, busy := true }

/-- O1, O2 and O3 are refused; O4, a read while BUSY = 1, is not; a completion always happens (60_exceptions.md R219).
Which refusal answers an action that breaks several obligations, and its name, are the model's choice (log entry 13); that
a command with no turn left completes is log entry 2. -/
def Obligations.BrokenHostObligationsAreRefused : Prop :=
  (∀ (s : State) (rest : List Turn) (offset bytes : Nat) (w : Word),
    s.script = .host (.write offset bytes w) :: rest → ¬ (bytes = 4 ∧ offset % 4 = 0) →
    step s = .refused .badAccess) ∧
  (∀ (s : State) (rest : List Turn) (offset bytes : Nat),
    s.script = .host (.read offset bytes) :: rest → ¬ (bytes = 4 ∧ offset % 4 = 0) →
    step s = .refused .badAccess) ∧
  (∀ (s : State) (rest : List Turn) (w : Word), s.script = .host (.write 0 4 w) :: rest → s.busy = true →
    step s = .refused .cmdWriteWhileBusy) ∧
  (∀ (s : State) (rest : List Turn) (w : Word), s.script = .host (.write 0 4 w) :: rest → s.busy = false →
    s.maxIn < s.inPort.length → step s = .refused .inputTooLong) ∧
  (∀ (s : State) (rest : List Turn) (offset : Nat), offset % 4 = 0 → s.busy = true →
    (s.script = .host (.read offset 4) :: rest ∨ s.script = .host .readOut :: rest) → ∃ t, step s = .next t) ∧
  (∀ s : State, s.busy = true → BlockTurn s → ∃ t, step s = .next t ∧ t.busy = false)

/-- What the host's reads of an idle block return: CMD and the reserved offsets 0, RESULT and OUT as they stand, with no
side effect on the block (20_memory.md R51, R57; 10_state.md R23, R25, R27). That every aligned offset from 0x0C up is
inside the window is the model's choice (log entry 12). -/
def Obligations.IdleReadsReturnTheRegisters : Prop :=
  ∀ (s : State) (rest : List Turn), s.busy = false →
    (s.script = .host (.read 0x00 4) :: rest → step s = .next { s with script := rest, rdata := 0 }) ∧
    (s.script = .host (.read 0x08 4) :: rest → step s = .next { s with script := rest, rdata := s.result }) ∧
    (∀ offset, 0x0C ≤ offset → offset % 4 = 0 → s.script = .host (.read offset 4) :: rest →
      step s = .next { s with script := rest, rdata := 0 }) ∧
    (s.script = .host .readOut :: rest → step s = .next { s with script := rest, rout := s.out })

/-- The STATUS word an idle block returns to a read or a poll: BUSY in bit 0, TREE_VALID in bit 1, ERR in bits 7:4 with
the numbers of 60_exceptions.md R201, every other bit 0 (10_state.md R24). -/
def Obligations.StatusWordOfAnIdleBlock : Prop :=
  ∀ (s : State) (rest : List Turn), s.busy = false →
    (s.script = .host (.read 0x04 4) :: rest ∨ s.script = .host .poll :: rest) →
    ∃ v : Word, step s = .next { s with script := rest, rdata := v } ∧
      v.toNat = 2 * s.treeValid.toNat + 16 * (match s.err with
        | .ok => 0 | .invalidInput => 1 | .unknownSymbol => 2 | .malformedCode => 3 | .illegalCmd => 4)

/-- Reads while BUSY = 1 (10_state.md R36, 60_exceptions.md R219 O4): STATUS shows BUSY = 1 and zero reserved bits, CMD
and the reserved offsets read 0, and nothing of the block changes. The model's choices: every aligned offset from 0x0C up
is inside the window (log entry 12), and every read while BUSY = 1 advances the draw counter (log entry 10). -/
def Obligations.BusyReadsShowBusyAndChangeNothing : Prop :=
  ∀ (s : State) (rest : List Turn), s.busy = true →
    (s.script = .host (.read 0x04 4) :: rest → ∃ v : Word,
      step s = .next { s with script := rest, rdata := v, draws := s.draws + 1 } ∧
      v.getLsbD 0 = true ∧ v.getLsbD 2 = false ∧ v.getLsbD 3 = false ∧ ∀ k, 8 ≤ k → v.getLsbD k = false) ∧
    (s.script = .host (.read 0x08 4) :: rest → ∃ v : Word,
      step s = .next { s with script := rest, rdata := v, draws := s.draws + 1 }) ∧
    (∀ offset, offset = 0x00 ∨ 0x0C ≤ offset → offset % 4 = 0 → s.script = .host (.read offset 4) :: rest →
      step s = .next { s with script := rest, rdata := 0, draws := s.draws + 1 }) ∧
    (s.script = .host .readOut :: rest → ∃ o : List Byte,
      step s = .next { s with script := rest, rout := o, draws := s.draws + 1 })

/-- 20_memory.md R57: writes to STATUS, RESULT and the reserved offsets are ignored, busy or not. That every aligned offset
from 0x0C up is inside the window is the model's choice (log entry 12). -/
def Obligations.WritesElsewhereAreIgnored : Prop :=
  ∀ (s : State) (rest : List Turn) (offset : Nat) (w : Word), s.script = .host (.write offset 4 w) :: rest →
    offset ≠ 0 → offset % 4 = 0 → step s = .next { s with script := rest }

/-- 20_memory.md R62, 70_reset_and_hazards.md R236: what the host presents after the issue does not reach the command: the
completion is the same but for the host's own buffer. -/
def Obligations.CapturedInputIsIsolatedFromTheHost : Prop :=
  (∀ (s : State) (later : List Byte), s.busy = true → BlockTurn s →
    ∃ t, step s = .next t ∧ step { s with inPort := later } = .next { t with inPort := later }) ∧
  (∀ (s : State) (rest : List Turn) (later : List Byte), s.script = .host (.present later) :: rest →
    step s = .next { s with script := rest, inPort := later }) ∧
  (∀ (s : State) (rest : List Turn), s.script = .host .presentOut :: rest →
    step s = .next { s with script := rest, inPort := s.rout })

/-- A reset at any time, a command in progress or not, gives the reset values that 10_state.md R35 states; nothing of the
command is committed (70_reset_and_hazards.md R230, R231). That the host agent keeps its own state is the model's choice
(log entry 5). -/
def Obligations.ResetCancelsAndClears : Prop :=
  ∀ (s : State) (rest : List Turn), s.script = .host .reset :: rest →
    ∃ t, step s = .next t ∧ t.busy = false ∧ t.treeValid = false ∧ t.err = .ok ∧ t.cmd = 0 ∧ t.captured = [] ∧
      t.result = 0 ∧ t.out = [] ∧ (∀ a, atSym t.code a = none) ∧ t.inPort = s.inPort ∧ t.script = rest ∧
      t.rdata = s.rdata ∧ t.rout = s.rout ∧ t.maxIn = s.maxIn

/-- The values that 10_state.md R35 states for reset, STATUS as it reads among them. -/
def Obligations.ResetStateHoldsTheStatedValues : Prop :=
  State.reset.busy = false ∧ State.reset.treeValid = false ∧ State.reset.err = .ok ∧ State.reset.cmd = 0 ∧
    State.reset.result = 0 ∧ State.reset.out = [] ∧ State.reset.captured = [] ∧ statusRead State.reset = 0 ∧
    ∀ a, atSym State.reset.code a = none

/-- 70_reset_and_hazards.md R233: after a reset and before a build, a non-empty HUF_ENCODE ends with UNKNOWN_SYMBOL, a
non-empty HUF_DECODE with MALFORMED_CODE, and a Hamming command gives what it gives in any other state. -/
def Obligations.WhatWorksAfterReset : Prop :=
  ∀ (s : State) (rest : List Turn) (input : List Byte), s.script = .host .reset :: rest →
    ∃ t, step s = .next t ∧
      (input ≠ [] → exec .hufEncode { t with captured := input } =
        .next (State.completed { t with captured := input } .unknownSymbol 0 [])) ∧
      (input ≠ [] → exec .hufDecode { t with captured := input } =
        .next (State.completed { t with captured := input } .malformedCode 0 [])) ∧
      (∀ i, isHammingCommand i = true → ∀ u : State, ∃ e r o,
        exec i { t with captured := input } = .next (State.completed { t with captured := input } e r o) ∧
        exec i { u with captured := input } = .next (State.completed { u with captured := input } e r o))

/-- 60_exceptions.md R218: an idle block does nothing, and with no host turn left the state persists. -/
def Obligations.IdleBlockDoesNothing : Prop :=
  ∀ s : State, s.busy = false →
    (s.script = [] → step s = .next s) ∧
    (∀ rest, s.script = .block :: rest → step s = .next { s with script := rest })

/-- 10_state.md R37, 70_reset_and_hazards.md R241: a command in progress is completed or cancelled after finitely many
turns, unless the host breaks an obligation and the run stops. -/
def Obligations.IssuedCommandEndsInFinitelyManyTurns : Prop :=
  ∀ s : State, s.busy = true → ∃ k, k ≤ s.script.length + 1 ∧
    ((∃ t, core.run k s = .next t ∧ t.busy = false) ∨ ∃ r, core.run k s = .refused r)

/-- 30_encoding.md R76: a host command line (present IN, write CMD, poll) on an idle block runs the line's command on its
IN, and the poll ends with the STATUS word of that command. -/
def Obligations.CommandLineRunsItsCommand : Prop :=
  ∀ (s : State) (c : HostCommand) (rest : List Turn), c.wellFormed = true → s.busy = false →
    s.script = turnsOf c ++ rest → c.expand.2.length ≤ s.maxIn →
    ∃ t, exec c.expand.1
        { s with
          inPort := c.expand.2, cmd := encode c.expand.1, captured := c.expand.2, busy := true,
          script := .host .poll :: rest } = .next t ∧
      core.run 4 s = .next { t with script := rest, rdata := statusWord false t.treeValid t.err.code }

/-- 30_encoding.md R77: HUF_LOOKUP of a symbol with a code gives the code in OUT and its length in RESULT. -/
def Obligations.LookupReadsOneCode : Prop :=
  ∀ (s : State) (sym : Nat) (bits : Bits), (HostCommand.hufLookup sym).wellFormed = true →
    atSym s.code (BitVec.ofNat 8 sym) = some bits →
    (HostCommand.hufLookup sym).expand = (HostCommand.hufEncode [sym]).expand ∧
    exec (HostCommand.hufLookup sym).expand.1 { s with captured := (HostCommand.hufLookup sym).expand.2 } =
      .next (s.completed .ok (BitVec.ofNat 32 bits.length) (bitElements bits))

/-! ## Invariants -/

/-- Every step keeps the state invariant (10_state.md R26, R27, R32, R36), from every state that meets it. -/
def Obligations.EveryStepKeepsTheInvariant : Prop :=
  ∀ s t : State, Inv s → step s = .next t → Inv t

/-- The state right after reset meets the state invariant. -/
def Obligations.ResetMeetsTheInvariant : Prop := Inv State.reset

/-! ## HUF_BUILD -/

/-- HUF_BUILD of an empty text: INVALID_INPUT, the stored tree and codes kept (40_huffman.md R101, D21). -/
def Obligations.BuildOfEmptyTextKeepsTheTree : Prop :=
  ∀ s : State, s.captured = [] → exec .hufBuild s = .next (s.completed .invalidInput 0 [])

/-- HUF_BUILD of a non-empty text completes with the number of distinct symbols, and nothing of an earlier build
survives: the tree, codes and counts are the same whatever Huffman state stood before (40_huffman.md R101, R107). -/
def Obligations.BuildReplacesTheHuffmanState : Prop :=
  ∀ s : State, s.captured ≠ [] →
    ∃ nodes root nleaf code freq,
      (∀ u : State, u.captured = s.captured → u.draws = s.draws → exec .hufBuild u = .next
        { u.completed .ok (BitVec.ofNat 32 s.captured.dedup.length) [] with
          node := nodes, root := root, nleaf := nleaf, code := code, freq := freq, treeValid := true,
          draws := u.draws + 1 }) ∧
      nleaf.toNat = s.captured.dedup.length ∧ 1 ≤ s.captured.dedup.length ∧ s.captured.dedup.length ≤ 256 ∧
      root.val = 2 * s.captured.dedup.length - 2 ∧ ∀ a, atSym freq a = s.captured.count a

/-- 40_huffman.md R103: one leaf per symbol that occurs, in ascending order, with its count as weight and seq from 0. -/
def Obligations.BuildSeedsLeavesInSymbolOrder : Prop :=
  ∀ s : State, s.captured ≠ [] → ∃ t, exec .hufBuild s = .next t ∧
    t.nleaf.toNat = (symbolsOf s.captured).length ∧
    ∀ (k : NodeIdx) (h : k.val < (symbolsOf s.captured).length),
      t.node[k] = .leaf (symbolsOf s.captured)[k.val] (s.captured.count (symbolsOf s.captured)[k.val]) k

/-- 40_huffman.md R104: each internal node, in order of creation, joins the two nodes extracted first from the
collection, the first on the left; its weight is their sum and its seq its index; the root is the last. -/
def Obligations.BuildMergesTheTwoLeast : Prop :=
  ∀ s : State, s.captured ≠ [] → ∃ t, exec .hufBuild s = .next t ∧
    t.root.val = 2 * t.nleaf.toNat - 2 ∧
    ∀ k : NodeIdx, t.nleaf.toNat ≤ k.val → k.val < 2 * t.nleaf.toNat - 1 →
      ∃ a b : NodeIdx, a ≠ b ∧
        t.node[k] = .internal (t.node[a].weight + t.node[b].weight) a b k ∧
        InCollection t.node t.nleaf.toNat k a ∧ InCollection t.node t.nleaf.toNat k b ∧
        (∀ j, InCollection t.node t.nleaf.toNat k j → j ≠ a → ExtractedBefore t.node a j) ∧
        (∀ j, InCollection t.node t.nleaf.toNat k j → j ≠ a → j ≠ b → ExtractedBefore t.node b j)

/-- 40_huffman.md R105: with one distinct symbol the tree is its leaf, the root is that leaf, the symbol's code is "0",
and no other symbol has a code; HUF_DECODE then reads bit 0 as the symbol and bit 1 as MALFORMED_CODE. -/
def Obligations.BuildOfOneSymbol : Prop :=
  ∀ (s : State) (a : Symbol), s.captured ≠ [] → (∀ e ∈ s.captured, e = a) →
    ∃ t, exec .hufBuild s = .next t ∧ t.err = .ok ∧ t.result = 1 ∧ t.nleaf = 1 ∧ t.root = 0 ∧
      t.node[(0 : NodeIdx)] = .leaf a s.captured.length 0 ∧
      atSym t.code a = some [false] ∧ (∀ b, b ≠ a → atSym t.code b = none) ∧
      ∀ bits : List Byte,
        ((∀ e ∈ bits, e.getLsbD 0 = false) → exec .hufDecode { t with captured := bits } = .next
          (State.completed { t with captured := bits } .ok (BitVec.ofNat 32 bits.length)
            (List.replicate bits.length a))) ∧
        ((∃ e ∈ bits, e.getLsbD 0 = true) → exec .hufDecode { t with captured := bits } =
          .next (State.completed { t with captured := bits } .malformedCode 0 []))

/-- 40_huffman.md R106: with two distinct symbols or more, a symbol has a code exactly when it occurs in the text, and
its code is the path from the root to its leaf, 0 for left and 1 for right. -/
def Obligations.BuildCodesAreTreePaths : Prop :=
  ∀ s : State, 2 ≤ s.captured.dedup.length → ∃ t, exec .hufBuild s = .next t ∧
    ∀ a : Symbol, (a ∉ s.captured → atSym t.code a = none) ∧
      (a ∈ s.captured → ∃ bits k, atSym t.code a = some bits ∧ follow t.node t.root bits = some k ∧
        IsLeafOf t.node k a)

/-- The order of the text does not matter: a permutation of IN gives the same state (40_huffman.md R101). -/
def Obligations.BuildIgnoresTheOrderOfTheText : Prop :=
  ∀ (s : State) (text text' : List Byte), text.Perm text' →
    exec .hufBuild { s with captured := text } = exec .hufBuild { s with captured := text' }

/-- No count or weight of a build exceeds the length of the text, and the root's weight is that length: with
`len(IN) <= MAX_IN` nothing passes 24 bits (40_huffman.md R114; log entry 9). -/
def Obligations.BuildNeverOverflows : Prop :=
  ∀ s : State, s.captured ≠ [] → s.captured.length ≤ 2 ^ 24 - 1 → ∃ t, exec .hufBuild s = .next t ∧
    (∀ a, atSym t.freq a < 2 ^ 24) ∧
    (∀ k : NodeIdx, k.val < 2 * t.nleaf.toNat - 1 → t.node[k].weight < 2 ^ 24) ∧
    t.node[t.root].weight = s.captured.length

/-- Code lengths after a build of `n` distinct symbols: 1 for `n = 1`, between 1 and `n - 1` otherwise
(40_huffman.md R113). -/
def Obligations.CodeLengthsAreBounded : Prop :=
  ∀ s : State, s.captured ≠ [] → ∃ t, exec .hufBuild s = .next t ∧
    ∀ a bits, atSym t.code a = some bits →
      1 ≤ bits.length ∧ bits.length ≤ max 1 (s.captured.dedup.length - 1) ∧ bits.length ≤ 255

/-- After a build no valid code is a prefix of another symbol's (40_huffman.md R111). -/
def Obligations.BuiltCodesArePrefixFree : Prop :=
  ∀ s : State, s.captured ≠ [] → ∃ t, exec .hufBuild s = .next t ∧
    ∀ a b x y, a ≠ b → atSym t.code a = some x → atSym t.code b = some y → ¬ x <+: y

/-! ## HUF_ENCODE and HUF_DECODE -/

/-- 40_huffman.md R108: HUF_ENCODE of a text whose symbols all have codes gives the concatenated codes in OUT, one element
per bit, and their length in RESULT; with a symbol that has none, UNKNOWN_SYMBOL; the Huffman state is only read. -/
def Obligations.EncodeConcatenatesTheCodes : Prop :=
  ∀ s : State,
    (AllCoded s s.captured →
      exec .hufEncode s = .next (s.completed .ok (BitVec.ofNat 32 (codesOf s s.captured).length)
        (bitElements (codesOf s s.captured)))) ∧
    ((∃ a ∈ s.captured, atSym s.code a = none) →
      exec .hufEncode s = .next (s.completed .unknownSymbol 0 []))

/-- HUF_DECODE of an empty IN gives `[]` and OK with or without a tree; of a non-empty IN without a tree,
MALFORMED_CODE (40_huffman.md R109, D20). -/
def Obligations.DecodeOfNothingOrWithoutATree : Prop :=
  (∀ s : State, s.captured = [] → exec .hufDecode s = .next (s.completed .ok 0 [])) ∧
  (∀ s : State, s.captured ≠ [] → s.treeValid = false →
    exec .hufDecode s = .next (s.completed .malformedCode 0 []))

/-- HUF_DECODE with a tree that is one leaf: zeros give its symbol each, a one is MALFORMED_CODE (40_huffman.md R109). -/
def Obligations.DecodeWithASingleLeaf : Prop :=
  ∀ (s : State) (a : Symbol), s.treeValid = true → IsLeafOf s.node s.root a → s.captured ≠ [] →
    ((∀ e ∈ s.captured, e.getLsbD 0 = false) → exec .hufDecode s = .next
      (s.completed .ok (BitVec.ofNat 32 s.captured.length) (List.replicate s.captured.length a))) ∧
    ((∃ e ∈ s.captured, e.getLsbD 0 = true) → exec .hufDecode s = .next (s.completed .malformedCode 0 []))

/-- HUF_DECODE of the concatenated codes of any sequence of coded symbols returns that sequence
(40_huffman.md R109, R110). -/
def Obligations.DecodeInvertsTheCodes : Prop :=
  ∀ (s : State) (text : List Symbol), s.treeValid = true → TreeInv s → AllCoded s text →
    s.captured.map (fun e => e.getLsbD 0) = codesOf s text →
    exec .hufDecode s = .next (s.completed .ok (BitVec.ofNat 32 text.length) text)

/-- HUF_DECODE of a bit sequence that is no concatenation of codes gives MALFORMED_CODE and delivers nothing
(40_huffman.md R109). -/
def Obligations.DecodeOfAnythingElseIsMalformed : Prop :=
  ∀ s : State, s.treeValid = true → TreeInv s →
    (∀ text, AllCoded s text → s.captured.map (fun e => e.getLsbD 0) ≠ codesOf s text) →
    exec .hufDecode s = .next (s.completed .malformedCode 0 [])

/-- The Huffman round trip as a host run (40_huffman.md R110): HUF_BUILD in=T, HUF_ENCODE in=T, HUF_DECODE in=OUT, each
polled; then OUT is T and ERR is OK. The condition on the code length is the rule's. The run as a list of turns is the
model's choice (log entry 2), and the second command captures the IN presented for the first (log entry 15). -/
def Obligations.HuffmanRoundTrip : Prop :=
  ∀ (s : State) (text : List Byte), text ≠ [] → text.length ≤ s.maxIn → s.busy = false →
    (∃ t, exec .hufBuild { s with captured := text } = .next t ∧ (codesOf t text).length ≤ s.maxIn) ∧
      s.script =
        [.host (.present text), .host (.write 0 4 0x00000001), .host .poll,
          .host (.write 0 4 0x00000002), .host .poll, .host .readOut, .host .presentOut,
          .host (.write 0 4 0x00000003), .host .poll, .host .readOut] →
    ∃ k t, core.run k s = .next t ∧ t.script = [] ∧ t.busy = false ∧ t.err = .ok ∧ t.rout = text ∧
      t.result = BitVec.ofNat 32 text.length

/-- The compression bound (40_huffman.md R112): with `n` distinct symbols, the encoded text has at most
`len(T) * max(1, ceil(log2 n))` bits. For `n >= 2` the rule marks its ground as general knowledge (G1). -/
def Obligations.EncodedLengthIsBounded : Prop :=
  ∀ (s : State) (text : List Byte), text ≠ [] →
    ∃ t u, exec .hufBuild { s with captured := text } = .next t ∧
      exec .hufEncode { t with captured := text } = .next u ∧ u.err = .ok ∧
      u.out.length ≤ text.length * max 1 (Nat.clog 2 text.dedup.length)

/-! ## Hamming blocks -/

/-- HAM_GENERATE (41_hamming.md R154, with R151 and R152): RESULT[6:0] is `p1 p2 d0 p4 d1 d2 d3`, the rest 0. -/
def Obligations.GenerateGivesTheCodeWord : Prop :=
  ∀ (s : State) (d : DataBlock), ∃ w : Word,
    exec (.hamGenerate d) s = .next (s.completed .ok w []) ∧
    w.getLsbD 4 = d.getLsbD 3 ∧ w.getLsbD 2 = d.getLsbD 2 ∧ w.getLsbD 1 = d.getLsbD 1 ∧
    w.getLsbD 0 = d.getLsbD 0 ∧
    w.getLsbD 6 = (w.getLsbD 4 ^^ w.getLsbD 2 ^^ w.getLsbD 0) ∧
    w.getLsbD 5 = (w.getLsbD 4 ^^ w.getLsbD 1 ^^ w.getLsbD 0) ∧
    w.getLsbD 3 = (w.getLsbD 2 ^^ w.getLsbD 1 ^^ w.getLsbD 0) ∧ ∀ k, 7 ≤ k → w.getLsbD k = false

/-- HAM_CORRECT (41_hamming.md R155, with R153): POS from the three syndrome bits, position POS flipped, the data from
positions 3, 5, 6, 7; RESULT is `POS << 4 | D`. Bit `7 - p` of CW7 is `c[p]`. -/
def Obligations.CorrectFlipsTheNamedPosition : Prop :=
  ∀ (s : State) (w : CodeBlock),
    let c : Nat → Bool := fun p => w.getLsbD (7 - p)
    let pos := (c 1 ^^ c 3 ^^ c 5 ^^ c 7).toNat + 2 * (c 2 ^^ c 3 ^^ c 6 ^^ c 7).toNat +
      4 * (c 4 ^^ c 5 ^^ c 6 ^^ c 7).toNat
    let f : Nat → Nat := fun p => (c p ^^ decide (pos = p)).toNat
    ∃ r : Word, exec (.hamCorrect w) s = .next (s.completed .ok r []) ∧
      r.toNat = 16 * pos + 8 * f 3 + 4 * f 5 + 2 * f 6 + f 7

/-- A clean word (41_hamming.md R158): HAM_CORRECT of the RESULT of HAM_GENERATE D gives RESULT = D. -/
def Obligations.CleanWordCorrectsToItsData : Prop :=
  ∀ (s : State) (d : DataBlock), ∃ t, exec (.hamGenerate d) s = .next t ∧
    ∀ u : State, exec (.hamCorrect (BitVec.ofNat 7 t.result.toNat)) u =
      .next (u.completed .ok (BitVec.ofNat 32 d.toNat) [])

/-- One flipped bit (41_hamming.md R159): HAM_CORRECT returns the data sent and the flipped position. -/
def Obligations.SingleErrorIsCorrected : Prop :=
  ∀ (s u : State) (d : DataBlock) (p : Nat), 1 ≤ p → p ≤ 7 → ∃ t, exec (.hamGenerate d) s = .next t ∧
    exec (.hamCorrect (BitVec.ofNat 7 (t.result.toNat ^^^ 2 ^ (7 - p)))) u =
      .next (u.completed .ok (BitVec.ofNat 32 (16 * p + d.toNat)) [])

/-- Two or more flipped bits (41_hamming.md R160): no error is raised and the data returned is never the data sent; with
exactly two flips at `p` and `q`, POS is `p XOR q`. -/
def Obligations.MultipleErrorsPassSilently : Prop :=
  (∀ (s : State) (d : DataBlock) (e : CodeBlock),
    2 ≤ ((List.range 7).filter fun k => e.getLsbD k).length →
    ∃ r : Word, exec (.hamCorrect (generate d ^^^ e)) s = .next (s.completed .ok r []) ∧
      r.toNat % 16 ≠ d.toNat) ∧
  (∀ (s : State) (d : DataBlock) (p q : Nat), 1 ≤ p → p ≤ 7 → 1 ≤ q → q ≤ 7 → p ≠ q →
    ∃ r : Word, exec (.hamCorrect (flipAt (flipAt (generate d) p) q)) s = .next (s.completed .ok r []) ∧
      r.toNat / 16 = p ^^^ q)

/-! ## Hamming streams -/

/-- HAM_ENCODE_STREAM (41_hamming.md R156): `ceil(L/4)` code words, word `j` that of bits `4j` to `4j+3` of IN, the last
group zero-padded on the right; RESULT is their number. -/
def Obligations.EncodeStreamBlocks : Prop :=
  ∀ s : State, ∃ out : List Byte,
    exec .hamEncodeStream s = .next (s.completed .ok (BitVec.ofNat 32 ((s.captured.length + 3) / 4)) out) ∧
    out.length = (s.captured.length + 3) / 4 ∧
    ∀ j, j < out.length → ∃ d : DataBlock, out[j]? = some ((generate d).zeroExtend 8) ∧
      ∀ k, k < 4 → d.getLsbD (3 - k) = ((s.captured[4 * j + k]?.map fun e => e.getLsbD 0).getD false)

/-- HAM_DECODE_STREAM (41_hamming.md R157): INVALID_INPUT when LEN24 exceeds four times the number of blocks; otherwise
LEN24 bits, bit `i` being data bit `i mod 4` of corrected block `i / 4`, and RESULT = LEN24. -/
def Obligations.DecodeStreamBits : Prop :=
  ∀ (s : State) (len24 : BitVec 24),
    (4 * s.captured.length < len24.toNat →
      exec (.hamDecodeStream len24) s = .next (s.completed .invalidInput 0 [])) ∧
    (len24.toNat ≤ 4 * s.captured.length → ∃ out : List Byte,
      exec (.hamDecodeStream len24) s = .next (s.completed .ok (BitVec.ofNat 32 len24.toNat) out) ∧
      out.length = len24.toNat ∧
      ∀ i, i < len24.toNat → ∃ e : Byte, s.captured[i / 4]? = some e ∧
        out[i]? = some (if (correct (e.setWidth 7)).1.getLsbD (3 - i % 4) then 0x01 else 0x00))

/-- The stream round trip over a channel that flips at most one bit of each block (41_hamming.md R161, R159). -/
def Obligations.StreamRoundTripWithSingleErrors : Prop :=
  ∀ (s u : State) (bits : Bits), bits.length < 2 ^ 24 → s.captured = bitElements bits →
    ∃ t, exec .hamEncodeStream s = .next t ∧
      ∀ received : List Byte, List.Forall₂ AtMostOneFlip t.out received →
        exec (.hamDecodeStream (BitVec.ofNat 24 bits.length)) { u with captured := received } =
          .next (u.completed .ok (BitVec.ofNat 32 bits.length) (bitElements bits))

/-! ## Isolation -/

/-- Each Hamming command is a pure function of its operand and IN (41_hamming.md R150, 10_state.md R33): what it writes
is the same in every state, and it changes nothing else. -/
def Obligations.HammingCommandsArePure : Prop :=
  ∀ (i : Instr) (input : List Byte), isHammingCommand i = true → ∃ e r o, ∀ s : State, s.captured = input →
    exec i s = .next (s.completed e r o)

/-- The unused bits of an IN element are ignored (30_encoding.md R78): bits 7:1 of a bit element, bit 7 of a code-word
element; HAM_GENERATE and HAM_CORRECT read no IN. -/
def Obligations.UnusedElementBitsAreIgnored : Prop :=
  ∀ (s : State) (x y : List Byte),
    (x.map (fun e => e.getLsbD 0) = y.map (fun e => e.getLsbD 0) →
      exec .hufDecode { s with captured := x } = exec .hufDecode { s with captured := y } ∧
      exec .hamEncodeStream { s with captured := x } = exec .hamEncodeStream { s with captured := y }) ∧
    (x.map (fun e => e.toNat % 128) = y.map (fun e => e.toNat % 128) → ∀ len24,
      exec (.hamDecodeStream len24) { s with captured := x } =
        exec (.hamDecodeStream len24) { s with captured := y }) ∧
    (∀ d, exec (.hamGenerate d) { s with captured := x } = exec (.hamGenerate d) { s with captured := y }) ∧
    (∀ w, exec (.hamCorrect w) { s with captured := x } = exec (.hamCorrect w) { s with captured := y })

/-- FREQ is never observable (10_state.md R31): a command gives the same state but for FREQ, whatever FREQ held. -/
def Obligations.FrequencyTableIsUnobservable : Prop :=
  ∀ (i : Instr) (s : State) (other : Vector Nat 256), ∃ t t', exec i s = .next t ∧
    exec i { s with freq := other } = .next t' ∧ { t with freq := t'.freq } = t'

/-- While no tree is valid, NODE, ROOT and NLEAF cannot be observed, and a build overwrites them
(70_reset_and_hazards.md R230, U2). -/
def Obligations.UnbuiltTreeIsUnobservable : Prop :=
  ∀ (i : Instr) (s : State) (node : Vector Node 511) (root : NodeIdx) (nleaf : BitVec 9), s.treeValid = false →
    ∃ t t', exec i s = .next t ∧ exec i { s with node := node, root := root, nleaf := nleaf } = .next t' ∧
      { t with node := t'.node, root := t'.root, nleaf := t'.nleaf } = t' ∧ (t.treeValid = true → t = t')

/-- No command reads beyond `NODE[2n-2]` (40_huffman.md R107, U4): entries above it cannot be observed. After a command the
two states agree in everything but those entries, and after a successful HUF_BUILD in those as well. -/
def Obligations.NodesBeyondTheTreeAreUnobservable : Prop :=
  ∀ (i : Instr) (s : State) (node : Vector Node 511), s.treeValid = true → TreeInv s →
    (∀ k : NodeIdx, k.val < 2 * s.nleaf.toNat - 1 → node[k] = s.node[k]) →
    ∃ t t', exec i s = .next t ∧ exec i { s with node := node } = .next t' ∧
      { t with node := t'.node } = t' ∧
      (∀ k : NodeIdx, k.val < 2 * s.nleaf.toNat - 1 → t'.node[k] = t.node[k]) ∧
      (i = .hufBuild → s.captured ≠ [] → t = t')

/-! ## The two codecs together -/

/-- Composition over a noisy channel (70_reset_and_hazards.md R239; program P5): HUF_BUILD, HUF_ENCODE,
HAM_ENCODE_STREAM, at most one flip in each block, HAM_DECODE_STREAM of the encoded length, HUF_DECODE give the text
back. -/
def Obligations.NoisyChannelDeliversTheText : Prop :=
  ∀ (s : State) (text : List Byte), text ≠ [] →
    ∃ t₁ t₂ t₃, exec .hufBuild { s with captured := text } = .next t₁ ∧
      exec .hufEncode { t₁ with captured := text } = .next t₂ ∧
      exec .hamEncodeStream { t₂ with captured := t₂.out } = .next t₃ ∧
      ∀ received : List Byte, t₂.out.length < 2 ^ 24 → List.Forall₂ AtMostOneFlip t₃.out received →
        ∃ t₄ t₅, exec (.hamDecodeStream (BitVec.ofNat 24 t₂.out.length)) { t₃ with captured := received } = .next t₄ ∧
          exec .hufDecode { t₄ with captured := t₄.out } = .next t₅ ∧ t₅.err = .ok ∧ t₅.out = text
end

