-- ==== Sys2Proof/Laws/Encoding.lean ====
section
/-! SUPPORT. The fields of a command word as numbers, and what decode answers. -/

namespace Sys2Proof

theorem opField_toNat (w : Word) : (opField w).toNat = w.toNat % 16 := by
  simp [opField, BitVec.extractLsb'_toNat]

theorem rsvField_toNat (w : Word) : (rsvField w).toNat = w.toNat / 16 % 16 := by
  simp [rsvField, BitVec.extractLsb'_toNat, Nat.shiftRight_eq_div_pow]

theorem argField_toNat (w : Word) : (argField w).toNat = w.toNat / 256 := by
  have h := w.isLt
  simp only [argField, BitVec.extractLsb'_toNat, Nat.shiftRight_eq_div_pow]
  omega

theorem data4Field_toNat (w : Word) : (data4Field w).toNat = w.toNat / 256 % 16 := by
  simp [data4Field, BitVec.extractLsb'_toNat, Nat.shiftRight_eq_div_pow]

theorem cw7Field_toNat (w : Word) : (cw7Field w).toNat = w.toNat / 256 % 128 := by
  simp [cw7Field, BitVec.extractLsb'_toNat, Nat.shiftRight_eq_div_pow]

theorem len24Field_toNat (w : Word) : (len24Field w).toNat = w.toNat / 256 := argField_toNat w

/-- `CMD[31:12]` as a number. -/
theorem above12_toNat (w : Word) : (w.extractLsb' 12 20).toNat = w.toNat / 4096 := by
  have h := w.isLt
  simp only [BitVec.extractLsb'_toNat, Nat.shiftRight_eq_div_pow]
  omega

/-- `CMD[31:15]` as a number. -/
theorem above15_toNat (w : Word) : (w.extractLsb' 15 17).toNat = w.toNat / 32768 := by
  have h := w.isLt
  simp only [BitVec.extractLsb'_toNat, Nat.shiftRight_eq_div_pow]
  omega

theorem requireZero_eq_ok {n : Nat} (x : BitVec n) (i j : Instr) :
    requireZero x i = .ok j ↔ x.toNat = 0 ∧ i = j := by
  simp only [requireZero]
  split
  · simp_all
  · rename_i h
    simp only [reduceCtorEq, false_iff, not_and]
    exact fun h0 => absurd (BitVec.eq_of_toNat_eq (by simpa using h0)) h

/-- Concatenation as a number. -/
theorem toNat_append_eq {n m : Nat} (x : BitVec n) (y : BitVec m) : (x ++ y).toNat = x.toNat * 2 ^ m + y.toNat := by
  rw [BitVec.toNat_append, ← Nat.shiftLeft_add_eq_or_of_lt y.isLt, Nat.shiftLeft_eq]

/-- The word of a command as a number: opcode in the low byte, operand above it. -/
theorem encode_toNat (i : Instr) : (encode i).toNat = match i with
    | .hufBuild => 1
    | .hufEncode => 2
    | .hufDecode => 3
    | .hamGenerate d => d.toNat * 256 + 4
    | .hamCorrect c => c.toNat * 256 + 5
    | .hamEncodeStream => 6
    | .hamDecodeStream l => l.toNat * 256 + 7 := by
  cases i with
  | hamGenerate d =>
    exact (toNat_append_eq (0#20 ++ d) 0b00000100#8).trans (by rw [toNat_append_eq]; simp)
  | hamCorrect c =>
    exact (toNat_append_eq (0#17 ++ c) 0b00000101#8).trans (by rw [toNat_append_eq]; simp)
  | hamDecodeStream l => exact toNat_append_eq l 0b00000111#8
  | _ => rfl

end Sys2Proof
end

