-- ==== Sys2Proof/Laws/Hamming.lean ====
section
/-! SUPPORT. The Hamming functions: one spec lemma each (41_hamming.md). -/

namespace Sys2Proof.Machine

@[simp] theorem dataBits_packData (a b c d : Bool) : dataBits (packData a b c d) = [a, b, c, d] := by
  revert a b c d; decide

@[simp] theorem dataBits_length (d : DataBlock) : (dataBits d).length = 4 := rfl

theorem dataBits_getElem? (d : DataBlock) (k : Nat) (h : k < 4) : (dataBits d)[k]? = some (d.getLsbD (3 - k)) := by
  match k, h with
  | 0, _ => rfl
  | 1, _ => rfl
  | 2, _ => rfl
  | 3, _ => rfl

/-- `correct(generate(D)) = (D, 0)`. -/
theorem correct_generate (d : DataBlock) : correct (generate d) = (d, 0) := by
  revert d; decide

/-- `correct(generate(D) ^ (1 << (7-p))) = (D, p)`. -/
theorem correct_flip_generate (d : DataBlock) (p : Fin 7) :
    correct (flipAt (generate d) (p.val + 1)) = (d, BitVec.ofNat 3 (p.val + 1)) := by
  revert d p; decide

/-- The code is linear. -/
theorem generate_xor (d e : DataBlock) : generate (d ^^^ e) = generate d ^^^ generate e := by
  revert d e; decide

@[simp] theorem codeWordOf_codeWordElement (w : CodeBlock) : codeWordOf (codeWordElement w) = w := by
  revert w; decide

@[simp] theorem bitOf_bitElement (b : Bool) : bitOf (bitElement b) = b := by
  revert b; decide

theorem dataBlocks_length (bits : Bits) : (dataBlocks bits).length = (bits.length + 3) / 4 := by
  fun_induction dataBlocks bits <;> simp_all
  omega

/-- Block `j` holds the bits `4j` to `4j+3`, zero-padded on the right. -/
theorem dataBlocks_getElem (bits : Bits) (j : Nat) (h : j < (dataBlocks bits).length) :
    dataBits (dataBlocks bits)[j] =
      [bits.getD (4 * j) false, bits.getD (4 * j + 1) false, bits.getD (4 * j + 2) false,
        bits.getD (4 * j + 3) false] := by
  fun_induction dataBlocks bits generalizing j with
  | case1 => simp at h
  | case2 a => simp at h; subst h; simp
  | case3 a b => simp at h; subst h; simp
  | case4 a b c => simp at h; subst h; simp
  | case5 a b c d rest ih =>
    cases j with
    | zero => simp
    | succ j =>
      have := ih j (by simpa using h)
      simp only [List.getElem_cons_succ, this]
      simp [Nat.mul_add]

theorem correctedBits_length (words : List CodeBlock) : (correctedBits words).length = 4 * words.length := by
  induction words with
  | nil => rfl
  | cons w ws ih => simp only [correctedBits, List.flatMap_cons, List.length_append, dataBits_length] at ih ⊢; simp [ih]; omega

/-- The data bits of the blocks are the stream, followed by the padding. -/
theorem flatMap_dataBits_dataBlocks (bits : Bits) :
    ((dataBlocks bits).flatMap dataBits).take bits.length = bits := by
  fun_induction dataBlocks bits <;> simp_all

end Sys2Proof.Machine
end

