-- ==== Sys2Proof/Laws/Huffman.lean ====
section
/-! SUPPORT. The functions of the Huffman unit: one spec lemma each (40_huffman.md). -/

namespace Sys2Proof.Machine

/-! ## Parents -/

theorem isParent_of_internal {node : Vector Node 511} {k : NodeIdx} {w : Nat} {left right q : NodeIdx}
    (h : node[k] = .internal w left right q) (j : NodeIdx) : IsParent node k j ↔ left = j ∨ right = j := by
  simp [IsParent, h]

theorem not_isParent_of_leaf {node : Vector Node 511} {k : NodeIdx} {a : Symbol} {w : Nat} {q : NodeIdx}
    (h : node[k] = .leaf a w q) (j : NodeIdx) : ¬ IsParent node k j := by
  simp [IsParent, h]

/-! ## Code lookup -/

/-- A text whose symbols all have codes encodes to its concatenated codes. -/
theorem encodeText_of_coded (code : Vector (Option Bits) 256) (text : List Symbol)
    (h : ∀ a ∈ text, (atSym code a).isSome = true) :
    encodeText code text = some (text.flatMap fun a => (atSym code a).getD []) := by
  induction text with
  | nil => rfl
  | cons a rest ih =>
    obtain ⟨bits, hb⟩ := Option.isSome_iff_exists.1 (h a List.mem_cons_self)
    simp [encodeText, hb, ih fun b hb' => h b (List.mem_cons_of_mem _ hb')]

/-- A text encodes to nothing exactly when one of its symbols has no code. -/
theorem encodeText_eq_none (code : Vector (Option Bits) 256) (text : List Symbol) :
    encodeText code text = none ↔ ∃ a ∈ text, atSym code a = none := by
  induction text with
  | nil => simp [encodeText]
  | cons a rest ih =>
    cases ha : atSym code a with
    | none => simp [encodeText, ha]
    | some bits =>
      cases hr : encodeText code rest with
      | none => rw [hr] at ih; simpa [encodeText, ha, hr] using ih
      | some r => rw [hr] at ih; simpa [encodeText, ha, hr] using ih

/-! ## Decoding with one leaf -/

/-- Zeros decode to the one symbol each; a one is malformed. -/
theorem decodeSingle_eq (a : Symbol) (bits : Bits) :
    decodeSingle a bits = if bits.all (! ·) then some (List.replicate bits.length a) else none := by
  induction bits with
  | nil => rfl
  | cons b rest ih =>
    cases b with
    | true => rfl
    | false =>
      simp only [decodeSingle, ih, List.all_cons, Bool.not_false, Bool.true_and]
      split
      · rfl
      · rfl

/-! ## The tree walk -/

/-- From the end of a path through internal nodes, decoding goes on: the path to a leaf emits the leaf's symbol. -/
theorem decodeFrom_path (node : Vector Node 511) (root : NodeIdx) (path rest : Bits) (k j : NodeIdx) (a : Symbol)
    (hne : path ≠ []) (hf : follow node k path = some j) (hj : IsLeafOf node j a) :
    decodeFrom node root k (path ++ rest) = (decodeFrom node root root rest).map (a :: ·) := by
  induction path generalizing k with
  | nil => exact absurd rfl hne
  | cons b bs ih =>
    simp only [follow] at hf
    split at hf
    · cases hf
    · rename_i weight left right seq hk
      simp only [List.cons_append, decodeFrom, childOf, hk]
      cases bs with
      | nil =>
        simp only [follow, Option.some.injEq] at hf
        obtain ⟨w, q, hl⟩ := hj
        simp [hf, hl]
      | cons c cs =>
        have hin : ∃ w l r q, node[if b then right else left] = .internal w l r q := by
          simp only [follow] at hf
          split at hf
          · cases hf
          · exact ⟨_, _, _, _, ‹_›⟩
        obtain ⟨w, l, r, q, hi⟩ := hin
        simp only [hi]
        exact ih _ (by simp) hf

/-! ## Extraction and combining -/

/-- What extraction takes out is the collection. -/
theorem extractLeast_perm (x : Node) (xs : List Node) :
    ((extractLeast x xs).1 :: (extractLeast x xs).2).Perm (x :: xs) := by
  induction xs generalizing x with
  | nil => exact .refl _
  | cons y ys ih =>
    simp only [extractLeast]
    split
    · exact .cons _ (ih y)
    · exact ((List.Perm.swap x _ _)).trans (.cons _ (ih y))

@[simp] theorem extractLeast_length (x : Node) (xs : List Node) : (extractLeast x xs).2.length = xs.length := by
  simpa using (extractLeast_perm x xs).length_eq

theorem keyLt_iff (a b : Node) :
    keyLt a b = true ↔ a.weight < b.weight ∨ (a.weight = b.weight ∧ a.seq.val < b.seq.val) := by
  simp [keyLt]

/-- The order of extraction is transitive. -/
theorem keyLt_trans {a b c : Node} (h : keyLt a b = true) (h' : keyLt b c = true) : keyLt a c = true := by
  rw [keyLt_iff] at h h' ⊢
  omega

/-- Of two nodes with different creation numbers, one is extracted first. -/
theorem keyLt_total {a b : Node} (h : a.seq ≠ b.seq) : keyLt a b = true ∨ keyLt b a = true := by
  have hv : a.seq.val ≠ b.seq.val := fun hv => h (Fin.ext hv)
  rw [keyLt_iff, keyLt_iff]
  omega

/-- No node left behind is extracted before the one taken. -/
theorem extractLeast_least (x : Node) (xs : List Node) :
    ∀ y ∈ (extractLeast x xs).2, keyLt y (extractLeast x xs).1 = false := by
  induction xs generalizing x with
  | nil => simp [extractLeast]
  | cons y ys ih =>
    simp only [extractLeast]
    have hr := ih y
    split
    · rename_i hlt
      intro z hz
      simp only [List.mem_cons] at hz
      rw [Bool.eq_false_iff]
      intro hzx
      rcases hz with rfl | hz
      · exact absurd (keyLt_trans hlt hzx) (by simp [keyLt_iff])
      · exact absurd (keyLt_trans hzx hlt) (by simp [hr z hz])
    · rename_i hlt
      intro z hz
      simp only [List.mem_cons] at hz
      rcases hz with rfl | hz
      · simpa using hlt
      · exact hr z hz

/-- Combining a collection of `fuel + 1` nodes creates `fuel` internal nodes. -/
theorem combine_length (fuel next : Nat) (q : List Node) (h : q.length = fuel + 1) :
    (combine fuel next q).length = fuel := by
  induction fuel generalizing next q with
  | zero => rfl
  | succ fuel ih =>
    match q, h with
    | x :: xs, h =>
      have h1 : (extractLeast x xs).2.length = fuel + 1 := by simpa using h
      match he : extractLeast x xs with
      | (a, []) => simp [he] at h1
      | (a, y :: ys) =>
        have h2 : (extractLeast y ys).2.length = fuel := by simpa [he] using h1
        match hb : extractLeast y ys with
        | (b, rest) =>
          rw [hb] at h2
          simp only [combine, he, hb, List.length_cons, Nat.add_right_cancel_iff]
          exact ih _ _ (by simpa using h2)

/-! ## Counting and seeding -/

/-- The count of a symbol is its number of occurrences. -/
@[simp] theorem atSym_countSymbols (text : List Symbol) (a : Symbol) :
    atSym (countSymbols text) a = text.count a := by
  simp [countSymbols]

/-- The leaves number the symbols with a positive count. -/
theorem seedFrom_length (counts : List Nat) (s n : Nat) :
    (seedFrom counts s n).length = counts.countP (0 < ·) := by
  induction counts generalizing s n with
  | nil => rfl
  | cons c cs ih =>
    simp only [seedFrom, List.countP_cons]
    split
    · simp_all
    · simp_all

end Sys2Proof.Machine
end

