-- ==== Sys2Proof/Laws/State.lean ====
section
/-! SUPPORT. One lemma per field per shared update, true by rfl, so that no later proof unfolds a record update. -/

namespace Sys2Proof.Machine

/-! ### commitOk -/

@[simp] theorem commitOk_busy (r : Word) (o : List Byte) (s : State) : (commitOk r o s).busy = false := rfl
@[simp] theorem commitOk_treeValid (r : Word) (o : List Byte) (s : State) : (commitOk r o s).treeValid = s.treeValid := rfl
@[simp] theorem commitOk_err (r : Word) (o : List Byte) (s : State) : (commitOk r o s).err = .ok := rfl
@[simp] theorem commitOk_cmd (r : Word) (o : List Byte) (s : State) : (commitOk r o s).cmd = s.cmd := rfl
@[simp] theorem commitOk_captured (r : Word) (o : List Byte) (s : State) : (commitOk r o s).captured = [] := rfl
@[simp] theorem commitOk_result (r : Word) (o : List Byte) (s : State) : (commitOk r o s).result = r := rfl
@[simp] theorem commitOk_out (r : Word) (o : List Byte) (s : State) : (commitOk r o s).out = o := rfl
@[simp] theorem commitOk_nleaf (r : Word) (o : List Byte) (s : State) : (commitOk r o s).nleaf = s.nleaf := rfl
@[simp] theorem commitOk_root (r : Word) (o : List Byte) (s : State) : (commitOk r o s).root = s.root := rfl
@[simp] theorem commitOk_node (r : Word) (o : List Byte) (s : State) : (commitOk r o s).node = s.node := rfl
@[simp] theorem commitOk_code (r : Word) (o : List Byte) (s : State) : (commitOk r o s).code = s.code := rfl
@[simp] theorem commitOk_freq (r : Word) (o : List Byte) (s : State) : (commitOk r o s).freq = s.freq := rfl
@[simp] theorem commitOk_inPort (r : Word) (o : List Byte) (s : State) : (commitOk r o s).inPort = s.inPort := rfl
@[simp] theorem commitOk_script (r : Word) (o : List Byte) (s : State) : (commitOk r o s).script = s.script := rfl
@[simp] theorem commitOk_rdata (r : Word) (o : List Byte) (s : State) : (commitOk r o s).rdata = s.rdata := rfl
@[simp] theorem commitOk_rout (r : Word) (o : List Byte) (s : State) : (commitOk r o s).rout = s.rout := rfl
@[simp] theorem commitOk_draws (r : Word) (o : List Byte) (s : State) : (commitOk r o s).draws = s.draws := rfl
@[simp] theorem commitOk_maxIn (r : Word) (o : List Byte) (s : State) : (commitOk r o s).maxIn = s.maxIn := rfl

/-! ### commitErr -/

@[simp] theorem commitErr_busy (e : ErrCode) (s : State) : (commitErr e s).busy = false := rfl
@[simp] theorem commitErr_treeValid (e : ErrCode) (s : State) : (commitErr e s).treeValid = s.treeValid := rfl
@[simp] theorem commitErr_err (e : ErrCode) (s : State) : (commitErr e s).err = e := rfl
@[simp] theorem commitErr_cmd (e : ErrCode) (s : State) : (commitErr e s).cmd = s.cmd := rfl
@[simp] theorem commitErr_captured (e : ErrCode) (s : State) : (commitErr e s).captured = [] := rfl
@[simp] theorem commitErr_result (e : ErrCode) (s : State) : (commitErr e s).result = 0 := rfl
@[simp] theorem commitErr_out (e : ErrCode) (s : State) : (commitErr e s).out = [] := rfl
@[simp] theorem commitErr_nleaf (e : ErrCode) (s : State) : (commitErr e s).nleaf = s.nleaf := rfl
@[simp] theorem commitErr_root (e : ErrCode) (s : State) : (commitErr e s).root = s.root := rfl
@[simp] theorem commitErr_node (e : ErrCode) (s : State) : (commitErr e s).node = s.node := rfl
@[simp] theorem commitErr_code (e : ErrCode) (s : State) : (commitErr e s).code = s.code := rfl
@[simp] theorem commitErr_freq (e : ErrCode) (s : State) : (commitErr e s).freq = s.freq := rfl
@[simp] theorem commitErr_inPort (e : ErrCode) (s : State) : (commitErr e s).inPort = s.inPort := rfl
@[simp] theorem commitErr_script (e : ErrCode) (s : State) : (commitErr e s).script = s.script := rfl
@[simp] theorem commitErr_rdata (e : ErrCode) (s : State) : (commitErr e s).rdata = s.rdata := rfl
@[simp] theorem commitErr_rout (e : ErrCode) (s : State) : (commitErr e s).rout = s.rout := rfl
@[simp] theorem commitErr_draws (e : ErrCode) (s : State) : (commitErr e s).draws = s.draws := rfl
@[simp] theorem commitErr_maxIn (e : ErrCode) (s : State) : (commitErr e s).maxIn = s.maxIn := rfl

/-! ### commitBuild -/

@[simp] theorem commitBuild_busy (b : Built) (s : State) : (commitBuild b s).busy = false := rfl
@[simp] theorem commitBuild_treeValid (b : Built) (s : State) : (commitBuild b s).treeValid = true := rfl
@[simp] theorem commitBuild_err (b : Built) (s : State) : (commitBuild b s).err = .ok := rfl
@[simp] theorem commitBuild_cmd (b : Built) (s : State) : (commitBuild b s).cmd = s.cmd := rfl
@[simp] theorem commitBuild_captured (b : Built) (s : State) : (commitBuild b s).captured = [] := rfl
@[simp] theorem commitBuild_result (b : Built) (s : State) : (commitBuild b s).result = BitVec.ofNat 32 b.nleaf := rfl
@[simp] theorem commitBuild_out (b : Built) (s : State) : (commitBuild b s).out = [] := rfl
@[simp] theorem commitBuild_nleaf (b : Built) (s : State) : (commitBuild b s).nleaf = BitVec.ofNat 9 b.nleaf := rfl
@[simp] theorem commitBuild_root (b : Built) (s : State) : (commitBuild b s).root = b.root := rfl
@[simp] theorem commitBuild_node (b : Built) (s : State) : (commitBuild b s).node = table 511 fun k => b.nodes.getD k.val (Config.freeNode s.draws k) := rfl
@[simp] theorem commitBuild_code (b : Built) (s : State) : (commitBuild b s).code = b.code := rfl
@[simp] theorem commitBuild_freq (b : Built) (s : State) : (commitBuild b s).freq = b.freq := rfl
@[simp] theorem commitBuild_inPort (b : Built) (s : State) : (commitBuild b s).inPort = s.inPort := rfl
@[simp] theorem commitBuild_script (b : Built) (s : State) : (commitBuild b s).script = s.script := rfl
@[simp] theorem commitBuild_rdata (b : Built) (s : State) : (commitBuild b s).rdata = s.rdata := rfl
@[simp] theorem commitBuild_rout (b : Built) (s : State) : (commitBuild b s).rout = s.rout := rfl
@[simp] theorem commitBuild_draws (b : Built) (s : State) : (commitBuild b s).draws = s.draws + 1 := rfl
@[simp] theorem commitBuild_maxIn (b : Built) (s : State) : (commitBuild b s).maxIn = s.maxIn := rfl

/-! ### issue -/

@[simp] theorem issue_busy (w : Word) (s : State) : (issue w s).busy = true := rfl
@[simp] theorem issue_treeValid (w : Word) (s : State) : (issue w s).treeValid = s.treeValid := rfl
@[simp] theorem issue_err (w : Word) (s : State) : (issue w s).err = s.err := rfl
@[simp] theorem issue_cmd (w : Word) (s : State) : (issue w s).cmd = w := rfl
@[simp] theorem issue_captured (w : Word) (s : State) : (issue w s).captured = s.inPort := rfl
@[simp] theorem issue_result (w : Word) (s : State) : (issue w s).result = s.result := rfl
@[simp] theorem issue_out (w : Word) (s : State) : (issue w s).out = s.out := rfl
@[simp] theorem issue_nleaf (w : Word) (s : State) : (issue w s).nleaf = s.nleaf := rfl
@[simp] theorem issue_root (w : Word) (s : State) : (issue w s).root = s.root := rfl
@[simp] theorem issue_node (w : Word) (s : State) : (issue w s).node = s.node := rfl
@[simp] theorem issue_code (w : Word) (s : State) : (issue w s).code = s.code := rfl
@[simp] theorem issue_freq (w : Word) (s : State) : (issue w s).freq = s.freq := rfl
@[simp] theorem issue_inPort (w : Word) (s : State) : (issue w s).inPort = s.inPort := rfl
@[simp] theorem issue_script (w : Word) (s : State) : (issue w s).script = s.script := rfl
@[simp] theorem issue_rdata (w : Word) (s : State) : (issue w s).rdata = s.rdata := rfl
@[simp] theorem issue_rout (w : Word) (s : State) : (issue w s).rout = s.rout := rfl
@[simp] theorem issue_draws (w : Word) (s : State) : (issue w s).draws = s.draws := rfl
@[simp] theorem issue_maxIn (w : Word) (s : State) : (issue w s).maxIn = s.maxIn := rfl

/-! ### applyReset -/

@[simp] theorem applyReset_busy (s : State) : (applyReset s).busy = false := rfl
@[simp] theorem applyReset_treeValid (s : State) : (applyReset s).treeValid = false := rfl
@[simp] theorem applyReset_err (s : State) : (applyReset s).err = .ok := rfl
@[simp] theorem applyReset_cmd (s : State) : (applyReset s).cmd = 0 := rfl
@[simp] theorem applyReset_captured (s : State) : (applyReset s).captured = [] := rfl
@[simp] theorem applyReset_result (s : State) : (applyReset s).result = 0 := rfl
@[simp] theorem applyReset_out (s : State) : (applyReset s).out = [] := rfl
@[simp] theorem applyReset_nleaf (s : State) : (applyReset s).nleaf = Config.freeNleaf s.draws := rfl
@[simp] theorem applyReset_root (s : State) : (applyReset s).root = Config.freeRoot s.draws := rfl
@[simp] theorem applyReset_node (s : State) : (applyReset s).node = table 511 (Config.freeNode s.draws) := rfl
@[simp] theorem applyReset_code (s : State) : (applyReset s).code = Vector.replicate 256 none := rfl
@[simp] theorem applyReset_freq (s : State) : (applyReset s).freq = table 256 (Config.freeFreq s.draws) := rfl
@[simp] theorem applyReset_inPort (s : State) : (applyReset s).inPort = s.inPort := rfl
@[simp] theorem applyReset_script (s : State) : (applyReset s).script = s.script := rfl
@[simp] theorem applyReset_rdata (s : State) : (applyReset s).rdata = s.rdata := rfl
@[simp] theorem applyReset_rout (s : State) : (applyReset s).rout = s.rout := rfl
@[simp] theorem applyReset_draws (s : State) : (applyReset s).draws = s.draws + 1 := rfl
@[simp] theorem applyReset_maxIn (s : State) : (applyReset s).maxIn = s.maxIn := rfl

/-! ### readRegister -/

@[simp] theorem readRegister_busy (offset : Nat) (s : State) : (readRegister offset s).busy = s.busy := rfl
@[simp] theorem readRegister_treeValid (offset : Nat) (s : State) : (readRegister offset s).treeValid = s.treeValid := rfl
@[simp] theorem readRegister_err (offset : Nat) (s : State) : (readRegister offset s).err = s.err := rfl
@[simp] theorem readRegister_cmd (offset : Nat) (s : State) : (readRegister offset s).cmd = s.cmd := rfl
@[simp] theorem readRegister_captured (offset : Nat) (s : State) : (readRegister offset s).captured = s.captured := rfl
@[simp] theorem readRegister_result (offset : Nat) (s : State) : (readRegister offset s).result = s.result := rfl
@[simp] theorem readRegister_out (offset : Nat) (s : State) : (readRegister offset s).out = s.out := rfl
@[simp] theorem readRegister_nleaf (offset : Nat) (s : State) : (readRegister offset s).nleaf = s.nleaf := rfl
@[simp] theorem readRegister_root (offset : Nat) (s : State) : (readRegister offset s).root = s.root := rfl
@[simp] theorem readRegister_node (offset : Nat) (s : State) : (readRegister offset s).node = s.node := rfl
@[simp] theorem readRegister_code (offset : Nat) (s : State) : (readRegister offset s).code = s.code := rfl
@[simp] theorem readRegister_freq (offset : Nat) (s : State) : (readRegister offset s).freq = s.freq := rfl
@[simp] theorem readRegister_inPort (offset : Nat) (s : State) : (readRegister offset s).inPort = s.inPort := rfl
@[simp] theorem readRegister_script (offset : Nat) (s : State) : (readRegister offset s).script = s.script := rfl
@[simp] theorem readRegister_rdata (offset : Nat) (s : State) : (readRegister offset s).rdata = registerRead offset s := rfl
@[simp] theorem readRegister_rout (offset : Nat) (s : State) : (readRegister offset s).rout = s.rout := rfl
@[simp] theorem readRegister_draws (offset : Nat) (s : State) : (readRegister offset s).draws = drawsAfterRead s := rfl
@[simp] theorem readRegister_maxIn (offset : Nat) (s : State) : (readRegister offset s).maxIn = s.maxIn := rfl

/-! ### readOut -/

@[simp] theorem readOut_busy (s : State) : (readOut s).busy = s.busy := rfl
@[simp] theorem readOut_treeValid (s : State) : (readOut s).treeValid = s.treeValid := rfl
@[simp] theorem readOut_err (s : State) : (readOut s).err = s.err := rfl
@[simp] theorem readOut_cmd (s : State) : (readOut s).cmd = s.cmd := rfl
@[simp] theorem readOut_captured (s : State) : (readOut s).captured = s.captured := rfl
@[simp] theorem readOut_result (s : State) : (readOut s).result = s.result := rfl
@[simp] theorem readOut_out (s : State) : (readOut s).out = s.out := rfl
@[simp] theorem readOut_nleaf (s : State) : (readOut s).nleaf = s.nleaf := rfl
@[simp] theorem readOut_root (s : State) : (readOut s).root = s.root := rfl
@[simp] theorem readOut_node (s : State) : (readOut s).node = s.node := rfl
@[simp] theorem readOut_code (s : State) : (readOut s).code = s.code := rfl
@[simp] theorem readOut_freq (s : State) : (readOut s).freq = s.freq := rfl
@[simp] theorem readOut_inPort (s : State) : (readOut s).inPort = s.inPort := rfl
@[simp] theorem readOut_script (s : State) : (readOut s).script = s.script := rfl
@[simp] theorem readOut_rdata (s : State) : (readOut s).rdata = s.rdata := rfl
@[simp] theorem readOut_rout (s : State) : (readOut s).rout = outRead s := rfl
@[simp] theorem readOut_draws (s : State) : (readOut s).draws = drawsAfterRead s := rfl
@[simp] theorem readOut_maxIn (s : State) : (readOut s).maxIn = s.maxIn := rfl

/-! ### latchWord -/

@[simp] theorem latchWord_busy (w : Word) (s : State) : (latchWord w s).busy = true := rfl
@[simp] theorem latchWord_treeValid (w : Word) (s : State) : (latchWord w s).treeValid = s.treeValid := rfl
@[simp] theorem latchWord_err (w : Word) (s : State) : (latchWord w s).err = s.err := rfl
@[simp] theorem latchWord_cmd (w : Word) (s : State) : (latchWord w s).cmd = w := rfl
@[simp] theorem latchWord_captured (w : Word) (s : State) : (latchWord w s).captured = s.captured := rfl
@[simp] theorem latchWord_result (w : Word) (s : State) : (latchWord w s).result = s.result := rfl
@[simp] theorem latchWord_out (w : Word) (s : State) : (latchWord w s).out = s.out := rfl
@[simp] theorem latchWord_nleaf (w : Word) (s : State) : (latchWord w s).nleaf = s.nleaf := rfl
@[simp] theorem latchWord_root (w : Word) (s : State) : (latchWord w s).root = s.root := rfl
@[simp] theorem latchWord_node (w : Word) (s : State) : (latchWord w s).node = s.node := rfl
@[simp] theorem latchWord_code (w : Word) (s : State) : (latchWord w s).code = s.code := rfl
@[simp] theorem latchWord_freq (w : Word) (s : State) : (latchWord w s).freq = s.freq := rfl
@[simp] theorem latchWord_inPort (w : Word) (s : State) : (latchWord w s).inPort = s.inPort := rfl
@[simp] theorem latchWord_script (w : Word) (s : State) : (latchWord w s).script = .block :: s.script := rfl
@[simp] theorem latchWord_rdata (w : Word) (s : State) : (latchWord w s).rdata = s.rdata := rfl
@[simp] theorem latchWord_rout (w : Word) (s : State) : (latchWord w s).rout = s.rout := rfl
@[simp] theorem latchWord_draws (w : Word) (s : State) : (latchWord w s).draws = s.draws := rfl
@[simp] theorem latchWord_maxIn (w : Word) (s : State) : (latchWord w s).maxIn = s.maxIn := rfl

end Sys2Proof.Machine
end

