-- ==== Sys2Proof/Laws/Ops.lean ====
section
/-! SUPPORT. One lemma per shared operation that says everything it can do, and the inversion of a step. -/

namespace Sys2Proof.Machine

/-! ## Completion -/

theorem commitOk_eq_completed (r : Word) (o : List Byte) (s : State) : commitOk r o s = s.completed .ok r o := rfl

theorem commitErr_eq_completed (e : ErrCode) (s : State) : commitErr e s = s.completed e 0 [] := rfl

@[simp] theorem completed_completed (s : State) (e e' : ErrCode) (r r' : Word) (o o' : List Byte) :
    (s.completed e r o).completed e' r' o' = s.completed e' r' o' := rfl

/-- A command other than HUF_BUILD completes, and writes ERR, RESULT, OUT and nothing else. -/
theorem exec_eq_completed (i : Instr) (s : State) (hi : i ≠ .hufBuild) :
    ∃ e r o, exec i s = .next (s.completed e r o) := by
  cases i with
  | hufBuild => exact absurd rfl hi
  | hufEncode =>
    simp only [exec, execHufEncode]
    split
    · exact ⟨_, _, _, rfl⟩
    · exact ⟨_, _, _, rfl⟩
  | hufDecode =>
    simp only [exec, execHufDecode]
    split
    · exact ⟨_, _, _, rfl⟩
    · split
      · exact ⟨_, _, _, rfl⟩
      · split
        · exact ⟨_, _, _, rfl⟩
        · exact ⟨_, _, _, rfl⟩
  | hamGenerate d => exact ⟨_, _, _, rfl⟩
  | hamCorrect w => exact ⟨_, _, _, rfl⟩
  | hamEncodeStream => exact ⟨_, _, _, rfl⟩
  | hamDecodeStream l =>
    simp only [exec, execHamDecodeStream]
    split
    · exact ⟨_, _, _, rfl⟩
    · exact ⟨_, _, _, rfl⟩

/-- HUF_BUILD of an empty text is `raise INVALID_INPUT`; of another, the commit of its tree. -/
theorem exec_hufBuild (s : State) :
    exec .hufBuild s = if s.captured = [] then .next (commitErr .invalidInput s)
      else .next (commitBuild (buildTree s.captured) s) := by
  simp [exec, execHufBuild, show (symbolOf : Byte → Symbol) = id from rfl]

/-- HUF_ENCODE by the result of the code lookup. -/
theorem exec_hufEncode (s : State) :
    exec .hufEncode s = match encodeText s.code s.captured with
      | none => .next (commitErr .unknownSymbol s)
      | some bits => .next (commitOk (BitVec.ofNat 32 bits.length) (bits.map bitElement) s) := by
  have h : s.captured.map symbolOf = s.captured := List.map_id _
  exact congrArg (fun text => (match encodeText s.code text with
    | none => .next (commitErr .unknownSymbol s)
    | some bits => .next (commitOk (BitVec.ofNat 32 bits.length) (bits.map bitElement) s) : Answer)) h

/-- Every command answers a next state with BUSY = 0 and the captured IN gone. -/
theorem exec_next (i : Instr) (s : State) : ∃ t, exec i s = .next t ∧ t.busy = false ∧ t.captured = [] := by
  by_cases hi : i = .hufBuild
  · subst hi
    rw [exec_hufBuild]
    split
    · exact ⟨_, rfl, rfl, rfl⟩
    · exact ⟨_, rfl, rfl, rfl⟩
  · obtain ⟨e, r, o, h⟩ := exec_eq_completed i s hi
    exact ⟨_, h, rfl, rfl⟩

/-- A completion answers a next state with BUSY = 0 and the captured IN gone. -/
theorem complete_next (s : State) : ∃ t, complete s = .next t ∧ t.busy = false ∧ t.captured = [] := by
  simp only [complete]
  split
  · exact ⟨_, rfl, rfl, rfl⟩
  · exact exec_next _ _

/-! ## The host's accesses -/

theorem accessOk_iff (offset bytes : Nat) : accessOk offset bytes = true ↔ bytes = 4 ∧ offset % 4 = 0 := by
  simp [accessOk]

/-- What a bus write that is not refused does: it issues the command, or nothing. -/
theorem busWrite_next {offset bytes : Nat} {v : Word} {s t : State} (h : busWrite offset bytes v s = .next t) :
    (offset = 0 ∧ s.busy = false ∧ s.inPort.length ≤ s.maxIn ∧ t = issue v s) ∨ (offset ≠ 0 ∧ t = s) := by
  simp only [busWrite] at h
  split at h
  · cases h
  · split at h
    · split at h
      · cases h
      · split at h
        · cases h
        · cases h
          exact .inl ⟨‹_›, by simp_all, by omega, rfl⟩
    · cases h
      exact .inr ⟨‹_›, rfl⟩

/-- What a bus read that is not refused does. -/
theorem busRead_next {offset bytes : Nat} {s t : State} (h : busRead offset bytes s = .next t) :
    t = readRegister offset s := by
  simp only [busRead] at h
  split at h
  · cases h
  · cases h
    rfl

/-! ## The step -/

/-- Completion of an illegal word or of a decoded command. -/
theorem complete_eq (s : State) :
    (∃ r, decode s.cmd = .error r ∧ complete s = .next (s.completed .illegalCmd 0 [])) ∨
      ∃ i, decode s.cmd = .ok i ∧ complete s = exec i s := by
  simp only [complete]
  cases h : decode s.cmd with
  | error r => exact .inl ⟨r, rfl, rfl⟩
  | ok i => exact .inr ⟨i, rfl, rfl⟩

theorem step_of_blockTurn {s : State} (hb : s.busy = true) (ht : BlockTurn s) : step s = complete s.afterBlockTurn := by
  rcases ht with h | ⟨rest, h⟩ | ⟨rest, h⟩ <;>
    simp [step, nextTurn, h, blockTurn, hostTurn, hb, State.afterBlockTurn]

@[simp] theorem afterBlockTurn_busy (s : State) : s.afterBlockTurn.busy = s.busy := by
  simp only [State.afterBlockTurn]; split <;> rfl

@[simp] theorem afterBlockTurn_cmd (s : State) : s.afterBlockTurn.cmd = s.cmd := by
  simp only [State.afterBlockTurn]; split <;> rfl

@[simp] theorem afterBlockTurn_captured (s : State) : s.afterBlockTurn.captured = s.captured := by
  simp only [State.afterBlockTurn]; split <;> rfl

/-- Everything a step that answers `next t` can be: a completion; a host action on a state that differs from `s` in the
script alone; or an idle block turn. -/
theorem step_cases {s t : State} (h : step s = .next t) :
    (s.busy = true ∧ BlockTurn s ∧ complete s.afterBlockTurn = .next t) ∨
    (s.busy = false ∧ (t = s ∨ ∃ rest, t = { s with script := rest })) ∨
    ∃ rest : List Turn, (∃ l, t = { s with inPort := l, script := rest }) ∨
      (∃ w, s.busy = false ∧ s.inPort.length ≤ s.maxIn ∧ t = issue w { s with script := rest }) ∨
      t = { s with script := rest } ∨
      (∃ offset, t = readRegister offset { s with script := rest }) ∨
      t = readOut { s with script := rest } ∨ t = applyReset { s with script := rest } := by
  simp only [step, nextTurn] at h
  split at h
  · rename_i hs
    simp only [blockTurn] at h
    split at h
    · rename_i hb
      exact .inl ⟨hb, .inl hs, by simpa [State.afterBlockTurn, hs] using h⟩
    · cases h
      exact .inr (.inl ⟨by simp_all, .inl rfl⟩)
  · rename_i rest hs
    simp only [blockTurn] at h
    split at h
    · rename_i hb
      exact .inl ⟨hb, .inr (.inl ⟨rest, hs⟩), by simpa [State.afterBlockTurn, hs] using h⟩
    · cases h
      exact .inr (.inl ⟨by simp_all, .inr ⟨rest, rfl⟩⟩)
  · rename_i a rest hs
    cases a with
    | present l => cases h; exact .inr (.inr ⟨rest, .inl ⟨l, rfl⟩⟩)
    | presentOut => cases h; exact .inr (.inr ⟨rest, .inl ⟨s.rout, rfl⟩⟩)
    | write offset bytes v =>
      obtain ⟨-, hb, hl, rfl⟩ | ⟨-, rfl⟩ := busWrite_next h
      · exact .inr (.inr ⟨rest, .inr (.inl ⟨v, hb, hl, rfl⟩)⟩)
      · exact .inr (.inr ⟨rest, .inr (.inr (.inl rfl))⟩)
    | read offset bytes => exact .inr (.inr ⟨rest, .inr (.inr (.inr (.inl ⟨offset, busRead_next h⟩)))⟩)
    | readOut => cases h; exact .inr (.inr ⟨rest, .inr (.inr (.inr (.inr (.inl rfl))))⟩)
    | poll =>
      simp only [hostTurn] at h
      split at h
      · rename_i hb
        exact .inl ⟨hb, .inr (.inr ⟨rest, hs⟩), by simpa [State.afterBlockTurn, hs] using h⟩
      · cases h
        exact .inr (.inr ⟨rest, .inr (.inr (.inr (.inl ⟨statusOffset, rfl⟩)))⟩)
    | reset => cases h; exact .inr (.inr ⟨rest, .inr (.inr (.inr (.inr (.inr rfl))))⟩)

end Sys2Proof.Machine
end

