-- ==== Sys2Proof/Laws/PerInstr.lean ====
section
/-! SUPPORT. Statements for all instructions, one lemma per constructor. -/

/-- The encoded word selects its instruction's row (30_encoding.md R72). -/
def Sys2Proof.Laws.RowMatch.Statement (i : Sys2Proof.Instr) : Prop :=
  Sys2Proof.encode i &&& (Sys2Proof.rowOf i).2 = (Sys2Proof.rowOf i).1

namespace Sys2Proof.Laws.RowMatch

theorem hufBuild : Statement .hufBuild := rfl

theorem hufEncode : Statement .hufEncode := rfl

theorem hufDecode : Statement .hufDecode := rfl

theorem hamGenerate (data4 : DataBlock) : Statement (.hamGenerate data4) := by
  revert data4; simp only [Statement, encode, rowOf]; decide

theorem hamCorrect (cw7 : CodeBlock) : Statement (.hamCorrect cw7) := by
  revert cw7; simp only [Statement, encode, rowOf]; decide

theorem hamEncodeStream : Statement .hamEncodeStream := rfl

theorem hamDecodeStream (len24 : BitVec 24) : Statement (.hamDecodeStream len24) := by
  apply BitVec.eq_of_toNat_eq
  rw [rowOf, BitVec.toNat_and, encode_toNat]
  exact (Nat.and_two_pow_sub_one_eq_mod _ 8).trans (by simp)

end Sys2Proof.Laws.RowMatch
end

