-- ==== Sys2Proof/Tests/Slice0.lean ====
section
/-! SUPPORT. Tests with expected results from spec/95_test_vectors.md, and a witness for the hypotheses of every
statement. -/

namespace Sys2Proof.Tests

open Sys2Proof Sys2Proof.Machine

/-! ## Helpers -/

/-- A machine with MAX_IN = 100. -/
def idle : State := State.resetWith 100

/-- The block with the word `w` latched, `input` captured and the next turn its own. -/
def busyWith (w : Word) (input : List Byte) : State := { idle with busy := true, cmd := w, captured := input }

/-- The idle machine with a host script. -/
def scripted (script : List Turn) : State := { idle with script := script }

/-- `f` of the next state, or the default. -/
def ofNext {α : Type} (d : α) (a : Answer) (f : State → α) : α :=
  match a with
  | .next t => f t
  | _ => d

/-- The command on `input`, from state `s`. -/
def onInput (i : Instr) (input : List Byte) (s : State) : Answer := exec i { s with captured := input }

/-- ERR, RESULT and OUT of the answer. -/
def outcome (a : Answer) : Option (ErrCode × Word × List Byte) := ofNext none a fun t => some (t.err, t.result, t.out)

/-- The command on `input` after HUF_BUILD of `text`. -/
def afterBuild (text : List Byte) (i : Instr) (input : List Byte) : Option (ErrCode × Word × List Byte) :=
  ofNext none (onInput .hufBuild text idle) fun t => outcome (onInput i input t)

/-- "aabbbcc" -/
def aabbbcc : List Byte := [0x61, 0x61, 0x62, 0x62, 0x62, 0x63, 0x63]

/-- A hand-written tree of one leaf, "a" (vector H2). -/
def oneLeaf : State :=
  { idle with
    treeValid := true
    nleaf := 1
    node := table 511 fun _ => .leaf 0x61 4 0
    code := table 256 fun s => if s.val = 0x61 then some [false] else none }

/-- A hand-written tree of two leaves, "a" and "b" (vector H3). -/
def twoLeaves : State :=
  { idle with
    treeValid := true
    nleaf := 2
    root := 2
    node := table 511 fun k =>
      if k = 0 then .leaf 0x61 1 0 else if k = 1 then .leaf 0x62 1 1 else .internal 2 0 1 2
    code := table 256 fun s =>
      if s.val = 0x61 then some [false] else if s.val = 0x62 then some [true] else none }

/-- A hand-written tree of three leaves, that of vector H1. -/
def threeLeaves : State :=
  { idle with
    treeValid := true
    nleaf := 3
    root := 4
    node := table 511 fun k =>
      if k = 0 then .leaf 0x61 2 0 else if k = 1 then .leaf 0x62 3 1 else if k = 2 then .leaf 0x63 2 2
      else if k = 3 then .internal 4 0 2 3 else .internal 7 1 3 4
    code := table 256 fun s =>
      if s.val = 0x61 then some [true, false] else if s.val = 0x62 then some [false]
      else if s.val = 0x63 then some [true, true] else none }

/-! ## Well-formed command lines: one ill-formed term for each check -/

theorem test_text_out_of_range_is_refused : (HostCommand.hufBuild [0x61, 256]).wellFormed = false := by decide

theorem test_encode_text_out_of_range_is_refused : (HostCommand.hufEncode [300]).wellFormed = false := by decide

theorem test_data4_out_of_range_is_refused : (HostCommand.hamGenerate 16).wellFormed = false := by decide

theorem test_cw7_out_of_range_is_refused : (HostCommand.hamCorrect 128).wellFormed = false := by decide

theorem test_len24_out_of_range_is_refused : (HostCommand.hamDecodeStream 16777216 []).wellFormed = false := by decide

theorem test_cwlist_out_of_range_is_refused : (HostCommand.hamDecodeStream 6 [0x33, 128]).wellFormed = false := by
  decide

theorem test_lookup_out_of_range_is_refused : (HostCommand.hufLookup 256).wellFormed = false := by decide

theorem test_largest_operands_are_accepted :
    (HostCommand.hamGenerate 15).wellFormed ∧ (HostCommand.hamCorrect 127).wellFormed ∧
      (HostCommand.hamDecodeStream 16777215 [127]).wellFormed ∧ (HostCommand.hufLookup 255).wellFormed := by decide

/-! ## Decoding (95_test_vectors.md section 2.4; words written out from 30_encoding.md R72) -/

theorem test_decode_hufBuild : decode 0b00000000000000000000000000000001#32 = .ok .hufBuild := by decide

theorem test_decode_hufEncode : decode 0b00000000000000000000000000000010#32 = .ok .hufEncode := by decide

theorem test_decode_hufDecode : decode 0b00000000000000000000000000000011#32 = .ok .hufDecode := by decide

theorem test_decode_hamGenerate : decode 0b00000000000000000000101100000100#32 = .ok (.hamGenerate 0xB) := by decide

theorem test_decode_hamCorrect : decode 0b00000000000000000111001100000101#32 = .ok (.hamCorrect 0x73) := by decide

theorem test_decode_hamEncodeStream : decode 0b00000000000000000000000000000110#32 = .ok .hamEncodeStream := by decide

theorem test_decode_hamDecodeStream :
    decode 0b11111111111111111111111100000111#32 = .ok (.hamDecodeStream 16777215) := by decide

theorem test_decode_rejects_by_name :
    decode 0x00000000 = .error .reservedOpcode ∧ decode 0x0000000F = .error .reservedOpcode ∧
      decode 0x00000017 = .error .reservedBits ∧ decode 0x00000101 = .error .argBits ∧
      decode 0x00001004 = .error .argBits ∧ decode 0x00008005 = .error .argBits := by decide

theorem test_encode_words :
    encode (.hamGenerate 0xB) = 0x00000B04 ∧ encode (.hamCorrect 0x73) = 0x00007305 ∧
      encode (.hamDecodeStream 6) = 0x00000607 := by decide

theorem test_decodeTableWord : decodeTableWord 32 0x00000B04 = some (.hamGenerate 0xB) ∧ decodeTableWord 32 0 = none := by
  decide

/-! ## The Huffman commands -/

theorem test_build_H1_tree : ofNext none (onInput .hufBuild aabbbcc idle) (fun t =>
    some (t.result, t.nleaf, t.root, t.node[(3 : NodeIdx)], t.node[(4 : NodeIdx)])) =
    some (3, 3, 4, .internal 4 0 2 3, .internal 7 1 3 4) := by decide +kernel

theorem test_build_H1_codes : ofNext [] (onInput .hufBuild aabbbcc idle) (fun t =>
    [0x61, 0x62, 0x63, 0x64].map fun a => atSym t.code a) =
    [some [true, false], some [false], some [true, true], none] := by decide +kernel

theorem test_build_empty_keeps_tree_H15 :
    ofNext none (onInput .hufBuild [] twoLeaves) (fun t => some (t.err, t.treeValid, t.node[t.root])) =
      some (.invalidInput, true, .internal 2 0 1 2) := by decide +kernel

theorem test_encode_H1 : afterBuild aabbbcc .hufEncode aabbbcc =
    some (.ok, 11, [1, 0, 1, 0, 0, 0, 0, 1, 1, 1, 1]) := by decide +kernel

theorem test_encode_unknown_H13 : outcome (onInput .hufEncode [0x62, 0x61, 0x64] twoLeaves) =
    some (.unknownSymbol, 0, []) := by decide +kernel

theorem test_decode_H1 : afterBuild aabbbcc .hufDecode [1, 0, 1, 0, 0, 0, 0, 1, 1, 1, 1] = some (.ok, 7, aabbbcc) := by
  decide +kernel

theorem test_decode_inside_a_code_H6 : afterBuild aabbbcc .hufDecode [1, 0, 1] = some (.malformedCode, 0, []) := by
  decide +kernel

theorem test_decode_single_leaf_H17 : outcome (onInput .hufDecode [0, 0, 0] oneLeaf) =
    some (.ok, 3, [0x61, 0x61, 0x61]) ∧ outcome (onInput .hufDecode [0, 1] oneLeaf) = some (.malformedCode, 0, []) := by
  decide +kernel

theorem test_no_tree_H16 : outcome (onInput .hufDecode [0] idle) = some (.malformedCode, 0, []) ∧
    outcome (onInput .hufDecode [] idle) = some (.ok, 0, []) := by decide +kernel

/-! ## The Hamming commands -/

theorem test_generate_table_G :
    (List.range 16).map (fun d => generate (BitVec.ofNat 4 d)) =
      [0x00, 0x69, 0x2A, 0x43, 0x4C, 0x25, 0x66, 0x0F, 0x70, 0x19, 0x5A, 0x33, 0x3C, 0x55, 0x16, 0x7F] := by decide

theorem test_generate_M1 : outcome (onInput (.hamGenerate 0b1011) [] idle) = some (.ok, 0x00000033, []) := by decide

theorem test_correct_M2 : outcome (onInput (.hamCorrect 0x73) [] idle) = some (.ok, 0x0000001B, []) := by decide

/-- Row 0x68 of table K. -/
theorem test_correct_table_K_row :
    (List.range 8).map (fun k => correct (BitVec.ofNat 7 (0x68 + k))) =
      [(1, 7), (1, 0), (2, 1), (1, 6), (4, 2), (1, 5), (6, 4), (0xF, 3)] := by decide

theorem test_encodeStream_S1 : outcome (onInput .hamEncodeStream [1, 0, 1, 1, 0, 1] idle) =
    some (.ok, 2, [0x33, 0x4C]) := by decide

theorem test_encodeStream_ignores_high_bits_S8 : outcome (onInput .hamEncodeStream [0x01, 0xFE, 0x03, 0x01] idle) =
    some (.ok, 1, [0x33]) := by decide

theorem test_decodeStream_S6 : outcome (onInput (.hamDecodeStream 6) [0x53, 0x4C] idle) =
    some (.ok, 6, [0, 0, 1, 1, 0, 1]) := by decide

theorem test_decodeStream_too_long_S3 : outcome (onInput (.hamDecodeStream 9) [0x33, 0x4C] idle) =
    some (.invalidInput, 0, []) := by decide

/-! ## The step -/

theorem test_step_runs_the_fetched_word :
    outcome (step (State.reset.withFetchWord 32 0x00000B04)) = some (.ok, 0x33, []) := by decide

theorem test_step_illegal_word : outcome (step (State.reset.withFetchWord 32 0)) = some (.illegalCmd, 0, []) := by decide

theorem test_cmd_write_issues :
    ofNext none (step { scripted [.host (.write 0 4 0x00000006)] with inPort := [1, 0] }) (fun t =>
      some (t.busy, t.cmd, t.captured, t.script)) = some (true, 0x00000006, [1, 0], []) := by decide

theorem test_cmd_write_while_busy_is_refused_T5 :
    step { busyWith 1 [] with script := [.host (.write 0 4 2)] } = .refused .cmdWriteWhileBusy := by rfl

theorem test_status_with_tree_reads_2 :
    ofNext none (step { twoLeaves with script := [.host (.read 4 4)] }) (fun t => some t.rdata) = some 0x00000002 := by
  decide

theorem test_reset_during_a_command_T4 :
    ofNext none (step { busyWith 1 [0x61, 0x62] with script := [.host .reset] }) (fun t => some (t.busy, t.treeValid)) =
      some (false, false) := by decide

/-- HUF_LOOKUP of 'b' with the tree of "ab" (vector H13's form). -/
theorem test_lookup : outcome (onInput (HostCommand.hufLookup 0x62).expand.1 (HostCommand.hufLookup 0x62).expand.2 twoLeaves)
    = some (.ok, 1, [1]) := by decide +kernel

/-! ## Witnesses: trees -/

theorem oneLeaf_node (k : NodeIdx) : oneLeaf.node[k] = .leaf 0x61 4 0 := by
  simp [oneLeaf]

theorem twoLeaves_node (k : NodeIdx) : twoLeaves.node[k] =
    if k = 0 then .leaf 0x61 1 0 else if k = 1 then .leaf 0x62 1 1 else .internal 2 0 1 2 := by
  simp [twoLeaves]

theorem oneLeaf_code (a : Symbol) : atSym oneLeaf.code a = if a = 0x61 then some [false] else none := by
  have h : ∀ a : Symbol, atSym oneLeaf.code a = if a.toNat = 0x61 then some [false] else none := fun a => by
    simp [oneLeaf]
  rw [h]
  simp [← BitVec.toNat_inj]

theorem twoLeaves_code (a : Symbol) :
    atSym twoLeaves.code a = if a = 0x61 then some [false] else if a = 0x62 then some [true] else none := by
  have h : ∀ a : Symbol, atSym twoLeaves.code a =
      if a.toNat = 0x61 then some [false] else if a.toNat = 0x62 then some [true] else none := fun a => by
    simp [twoLeaves]
  rw [h]
  simp [← BitVec.toNat_inj]

/-- The tree of one leaf meets the tree invariant. -/
theorem witness_oneLeaf_built : BuiltTree oneLeaf where
  leafCount := by decide
  rootIndex := by decide
  leaves k hk := by
    have : k = 0 := Fin.ext (by simpa [oneLeaf] using hk)
    subst this
    exact ⟨0x61, 4, oneLeaf_node 0⟩
  ascending j k a b hjk hk := by
    have h1 : k.val < 1 := hk
    have h2 : j.val < k.val := hjk
    omega
  internals k h h' := by
    have h1 : 1 ≤ k.val := h
    have h2 : k.val < 1 := h'
    omega
  oneParent j h := by
    have h2 : j.val < 0 := h
    omega
  validCodes a := by
    rw [oneLeaf_code]
    constructor
    · intro h
      split at h
      · rename_i ha
        subst ha
        exact ⟨0, by decide, 4, 0, oneLeaf_node 0⟩
      · simp at h
    · rintro ⟨k, -, w, q, h⟩
      rw [oneLeaf_node] at h
      cases h
      rfl
  codePaths h := absurd h (by decide)
  singleCode _ a bits h := by
    rw [oneLeaf_code] at h
    split at h
    · simpa using h.symm
    · simp at h

theorem twoLeaves_root : twoLeaves.node[(2 : NodeIdx)] = .internal 2 0 1 2 := by
  rw [twoLeaves_node]; rfl

theorem twoLeaves_leaf0 : twoLeaves.node[(0 : NodeIdx)] = .leaf 0x61 1 0 := by
  rw [twoLeaves_node]; rfl

theorem twoLeaves_leaf1 : twoLeaves.node[(1 : NodeIdx)] = .leaf 0x62 1 1 := by
  rw [twoLeaves_node]; rfl

theorem parent_above_two_leaves {node : Vector Node 511} {a b : Symbol} {v w : Nat} {q r : NodeIdx}
    (h0 : node[(0 : NodeIdx)] = .leaf a v q) (h1 : node[(1 : NodeIdx)] = .leaf b w r) (m j : NodeIdx)
    (hm : m.val < 3) (hp : IsParent node m j) : m = 2 := by
  rcases (by omega : m.val = 0 ∨ m.val = 1 ∨ m.val = 2) with h | h | h
  · have e : m = 0 := Fin.ext h
    rw [e] at hp
    exact absurd hp (not_isParent_of_leaf h0 j)
  · have e : m = 1 := Fin.ext h
    rw [e] at hp
    exact absurd hp (not_isParent_of_leaf h1 j)
  · exact Fin.ext h

/-- The tree of two leaves meets the tree invariant. -/
theorem witness_twoLeaves_built : BuiltTree twoLeaves where
  leafCount := by decide
  rootIndex := by decide
  leaves k hk := by
    have h1 : k.val < 2 := hk
    rcases (by omega : k.val = 0 ∨ k.val = 1) with h | h
    · have : k = 0 := Fin.ext (by simp [h])
      subst this
      exact ⟨0x61, 1, by rw [twoLeaves_node]; rfl⟩
    · have : k = 1 := Fin.ext (by simp [h])
      subst this
      exact ⟨0x62, 1, by rw [twoLeaves_node]; rfl⟩
  ascending j k a b hjk hk hj hk' := by
    have h1 : k.val < 2 := hk
    have h2 : j.val < k.val := hjk
    have hj0 : j = 0 := Fin.ext (by show j.val = 0; omega)
    have hk1 : k = 1 := Fin.ext (by show k.val = 1; omega)
    subst hj0 hk1
    obtain ⟨w, q, hj⟩ := hj
    obtain ⟨w', q', hk'⟩ := hk'
    rw [twoLeaves_node] at hj hk'
    cases hj
    cases hk'
    decide
  internals k h h' := by
    have h1 : 2 ≤ k.val := h
    have h2 : k.val < 3 := h'
    have : k = 2 := Fin.ext (by show k.val = 2; omega)
    subst this
    exact ⟨0, 1, by decide, by decide, by decide, by rw [twoLeaves_node, twoLeaves_node, twoLeaves_node]; rfl⟩
  oneParent j h := by
    have h2 : j.val < 2 := h
    refine ⟨2, by decide, ?_, ?_⟩
    · rw [isParent_of_internal twoLeaves_root]
      rcases (by omega : j.val = 0 ∨ j.val = 1) with h | h
      · exact .inl (Fin.ext (by simp [h]))
      · exact .inr (Fin.ext (by simp [h]))
    · intro m hm hp
      have hm' : m.val < 3 := by simpa [twoLeaves] using hm
      exact parent_above_two_leaves twoLeaves_leaf0 twoLeaves_leaf1 m j hm' hp
  validCodes a := by
    rw [twoLeaves_code]
    constructor
    · intro h
      split at h
      · rename_i ha
        subst ha
        exact ⟨0, by decide, 1, 0, by rw [twoLeaves_node]; rfl⟩
      · split at h
        · rename_i ha
          subst ha
          exact ⟨1, by decide, 1, 1, by rw [twoLeaves_node]; rfl⟩
        · simp at h
    · rintro ⟨k, hk, w, q, h⟩
      have h1 : k.val < 2 := hk
      rw [twoLeaves_node] at h
      rcases (by omega : k.val = 0 ∨ k.val = 1) with h0 | h0
      · rw [show k = 0 from Fin.ext (by simp [h0])] at h; cases h; rfl
      · rw [show k = 1 from Fin.ext (by simp [h0])] at h; cases h; rfl
  codePaths _ a bits h := by
    rw [twoLeaves_code] at h
    split at h
    · rename_i ha
      subst ha
      cases h
      exact ⟨0, by decide, ⟨1, 0, by rw [twoLeaves_node]; rfl⟩, by simp [follow, twoLeaves]⟩
    · split at h
      · rename_i ha
        subst ha
        cases h
        exact ⟨1, by decide, ⟨1, 1, by rw [twoLeaves_node]; rfl⟩, by simp [follow, twoLeaves]⟩
      · simp at h
  singleCode h := absurd h (by decide)

theorem threeLeaves_nodes : threeLeaves.node[0] = .leaf 0x61 2 0 ∧ threeLeaves.node[1] = .leaf 0x62 3 1 ∧
    threeLeaves.node[2] = .leaf 0x63 2 2 ∧ threeLeaves.node[3] = .internal 4 0 2 3 ∧
    threeLeaves.node[4] = .internal 7 1 3 4 := by
  simp [threeLeaves]

theorem threeLeaves_code (a : Symbol) : atSym threeLeaves.code a =
    if a = 0x61 then some [true, false] else if a = 0x62 then some [false]
      else if a = 0x63 then some [true, true] else none := by
  have h : ∀ a : Symbol, atSym threeLeaves.code a = if a.toNat = 0x61 then some [true, false]
      else if a.toNat = 0x62 then some [false] else if a.toNat = 0x63 then some [true, true] else none := fun a => by
    simp [threeLeaves]
  rw [h]
  simp [← BitVec.toNat_inj]

/-- The tree of three leaves meets the tree invariant. -/
theorem witness_threeLeaves_built : BuiltTree threeLeaves := by
  have below : ∀ k : NodeIdx, k.val < 5 → k = 0 ∨ k = 1 ∨ k = 2 ∨ k = 3 ∨ k = 4 := fun k h => by
    simp only [Fin.ext_iff]
    simp
    omega
  refine ⟨by decide, by decide, ?_, ?_, ?_, ?_, ?_, ?_, fun h => absurd h (by decide)⟩
  · intro k hk
    have h1 : k.val < 3 := hk
    rcases below k (by omega) with rfl | rfl | rfl | rfl | rfl <;> simp_all [threeLeaves_nodes]
  · intro j k a b hjk hk hj hk'
    have h1 : k.val < 3 := hk
    have h2 : j.val < k.val := hjk
    rcases below k (by omega) with rfl | rfl | rfl | rfl | rfl <;>
      rcases below j (by omega) with rfl | rfl | rfl | rfl | rfl <;>
      simp_all [IsLeafOf, threeLeaves_nodes]
    all_goals (subst_vars; decide)
  · intro k h h'
    have h1 : 3 ≤ k.val := h
    have h2 : k.val < 5 := h'
    rcases below k h2 with rfl | rfl | rfl | rfl | rfl <;> simp at h1
    · exact ⟨0, 2, by decide, by decide, by decide, by simp [threeLeaves_nodes, Node.weight]⟩
    · exact ⟨1, 3, by decide, by decide, by decide, by simp [threeLeaves_nodes, Node.weight]⟩
  · intro j h
    have h2 : j.val < 4 := h
    rcases below j (by omega) with rfl | rfl | rfl | rfl | rfl
    · refine ⟨3, by decide, by simp [IsParent, threeLeaves_nodes], fun m hm hp => ?_⟩
      rcases below m hm with rfl | rfl | rfl | rfl | rfl <;> simp_all [IsParent, threeLeaves_nodes]
    · refine ⟨4, by decide, by simp [IsParent, threeLeaves_nodes], fun m hm hp => ?_⟩
      rcases below m hm with rfl | rfl | rfl | rfl | rfl <;> simp_all [IsParent, threeLeaves_nodes]
    · refine ⟨3, by decide, by simp [IsParent, threeLeaves_nodes], fun m hm hp => ?_⟩
      rcases below m hm with rfl | rfl | rfl | rfl | rfl <;> simp_all [IsParent, threeLeaves_nodes]
    · refine ⟨4, by decide, by simp [IsParent, threeLeaves_nodes], fun m hm hp => ?_⟩
      rcases below m hm with rfl | rfl | rfl | rfl | rfl <;> simp_all [IsParent, threeLeaves_nodes]
    · simp at h2
  · intro a
    rw [threeLeaves_code]
    constructor
    · intro h
      split at h
      · exact ⟨0, by decide, by simp_all [IsLeafOf, threeLeaves_nodes]⟩
      · split at h
        · exact ⟨1, by decide, by simp_all [IsLeafOf, threeLeaves_nodes]⟩
        · split at h
          · exact ⟨2, by decide, by simp_all [IsLeafOf, threeLeaves_nodes]⟩
          · simp at h
    · rintro ⟨k, hk, w, q, h⟩
      have h1 : k.val < 3 := hk
      rcases below k (by omega) with rfl | rfl | rfl | rfl | rfl <;> simp [threeLeaves_nodes] at h
      · simp [← h.1]
      · simp [← h.1]
      · simp [← h.1]
  · intro _ a bits h
    rw [threeLeaves_code] at h
    split at h
    · exact ⟨0, by decide, by simp_all [IsLeafOf, threeLeaves_nodes], by cases h; simp [follow, threeLeaves]⟩
    · split at h
      · exact ⟨1, by decide, by simp_all [IsLeafOf, threeLeaves_nodes], by cases h; simp [follow, threeLeaves]⟩
      · split at h
        · exact ⟨2, by decide, by simp_all [IsLeafOf, threeLeaves_nodes], by cases h; simp [follow, threeLeaves]⟩
        · simp at h

theorem witness_oneLeaf_treeInv : TreeInv oneLeaf := ⟨fun _ => witness_oneLeaf_built, fun h => absurd h (by decide)⟩

theorem witness_twoLeaves_treeInv : TreeInv twoLeaves := ⟨fun _ => witness_twoLeaves_built, fun h => absurd h (by decide)⟩

/-! ## Witnesses: one for the hypotheses of each statement, and one for each clause -/

theorem witness_EncodeOfDecodeIsTheWord : decode 0x00007F05 = .ok (.hamCorrect 0x7F) := by decide

theorem witness_DecodePicksTheOneMatchingRow_rows :
    (0x00000F04 : Word) &&& (rowOf (.hamGenerate 1)).2 = (rowOf (.hamGenerate 1)).1 ∧
      (0x00000F04 : Word) &&& (rowOf (.hamGenerate 2)).2 = (rowOf (.hamGenerate 2)).1 := by decide

theorem witness_DecodePicksTheOneMatchingRow_selects : Selects 0xFFFFFF07 (.hamDecodeStream 0xFFFFFF) := by
  unfold Selects; decide

theorem witness_DecodePicksTheOneMatchingRow_noRow : (busyWith 0 []).busy = true ∧ BlockTurn (busyWith 0 []) ∧
    ∀ i, (busyWith 0 []).cmd &&& (rowOf i).2 ≠ (rowOf i).1 := by
  refine ⟨rfl, .inl rfl, fun i => ?_⟩
  cases i <;> simp [busyWith, rowOf]

/-- A word for each clause of R74, at the boundaries of its fields. -/
theorem witness_IllegalEncodingsEndWithIllegalCmd :
    ∀ w ∈ [0x00000000#32, 0x00000008, 0x0000000F, 0x00000011, 0x000000F7, 0x00000101, 0x80000001, 0x00100006,
      0x00001004, 0x80000004, 0x00008005, 0x80000005],
      IllegalWord w ∧ (busyWith w []).busy = true ∧ BlockTurn (busyWith w []) := by
  intro w hw
  refine ⟨?_, rfl, .inl rfl⟩
  simp only [List.mem_cons, List.not_mem_nil, or_false] at hw
  rcases hw with rfl | rfl | rfl | rfl | rfl | rfl | rfl | rfl | rfl | rfl | rfl | rfl <;>
    (unfold IllegalWord; decide)

theorem witness_IllegalEncodings_legal :
    ∀ w ∈ [0x00000001#32, 0x00000F04, 0x00007F05, 0x00000006, 0x00000007, 0xFFFFFF07], ¬ IllegalWord w := by
  intro w hw
  simp only [List.mem_cons, List.not_mem_nil, or_false] at hw
  rcases hw with rfl | rfl | rfl | rfl | rfl | rfl <;> (unfold IllegalWord; decide)

theorem witness_BlockTurnRunsTheDecodedCommand :
    let s := { busyWith 0x00000B04 [] with script := [.block, .host .readOut] }
    s.busy = true ∧ BlockTurn s ∧ decode s.cmd = .ok (.hamGenerate 0xB) :=
  ⟨rfl, .inr (.inl ⟨_, rfl⟩), by decide⟩

/-- A completion that ends in an error, on a poll. -/
theorem witness_CompletionCommitsAtomically_error :
    let s := { busyWith 0 [] with script := [.host .poll] }
    s.busy = true ∧ BlockTurn s ∧ (outcome (step s)).map (·.1) = some .illegalCmd :=
  ⟨rfl, .inr (.inr ⟨_, rfl⟩), by decide⟩

/-- A completion that succeeds, with no turn left. -/
theorem witness_CompletionCommitsAtomically_ok :
    let s := busyWith 6 [1]
    s.busy = true ∧ BlockTurn s ∧ (outcome (step s)).map (·.1) = some .ok :=
  ⟨rfl, .inl rfl, by decide⟩

theorem witness_InvalidInputHasTwoCauses :
    (outcome (onInput .hufBuild [] idle)).map (·.1) = some .invalidInput ∧
      (outcome (onInput (.hamDecodeStream 5) [0] idle)).map (·.1) = some .invalidInput ∧
      (outcome (onInput (.hamDecodeStream 4) [0] idle)).map (·.1) = some .ok := by decide

theorem witness_UnknownSymbolExactlyWhenNoCode :
    (scripted [.host .reset]).script = .host .reset :: [] ∧ [0x61#8] ≠ [] ∧
      (outcome (onInput .hufEncode [0x61] idle)).map (·.1) = some .unknownSymbol := by decide +kernel

theorem witness_UnknownSymbol_unbuilt :
    let s := { idle with captured := [0x61] }
    TreeInv s ∧ s.treeValid = false ∧ s.captured ≠ [] :=
  ⟨⟨fun h => absurd h (by decide), fun _ a => by simp [atSym, idle, State.resetWith]⟩, rfl, by decide⟩

/-- R204: IN ends inside a code; the other two causes are in `witness_DecodeWithASingleLeaf` and
`witness_DecodeOfNothingOrWithoutATree`. -/
theorem witness_MalformedCodeHasThreeCauses :
    TreeInv threeLeaves ∧ threeLeaves.treeValid = true ∧ EndsInsideACode threeLeaves [false, true] ∧
      outcome (onInput .hufDecode [0, 1] threeLeaves) = some (.malformedCode, 0, []) := by
  refine ⟨⟨fun _ => witness_threeLeaves_built, fun h => absurd h (by decide)⟩, rfl,
    ⟨[0x62], [true], 3, ?_, ?_, by simp, ?_, ?_⟩, by decide +kernel⟩
  · intro a ha
    rw [List.mem_singleton.mp ha, threeLeaves_code]
    decide
  · simp [codesOf, threeLeaves_code]
  · simp [follow, threeLeaves]
  · simp [threeLeaves_nodes, Node.isLeaf]

theorem witness_CmdWriteIssuesTheCommand :
    let s := { scripted [.host (.write 0 4 1)] with inPort := [0x61] }
    s.script = .host (.write 0 4 1) :: [] ∧ s.busy = false ∧ s.inPort.length ≤ s.maxIn := by decide

/-- O3: a 16-bit read of STATUS and a misaligned write. -/
theorem witness_BrokenHostObligations_access :
    ¬ (2 = 4 ∧ 4 % 4 = 0) ∧ ¬ (4 = 4 ∧ 2 % 4 = 0) ∧
      (scripted [.host (.read 4 2)]).script = .host (.read 4 2) :: [] ∧
      (scripted [.host (.write 2 4 1)]).script = .host (.write 2 4 1) :: [] := by decide

/-- O1. -/
theorem witness_BrokenHostObligations_busy :
    let s := { busyWith 1 [] with script := [.host (.write 0 4 1)] }
    s.script = .host (.write 0 4 1) :: [] ∧ s.busy = true := by decide

/-- O2: one element more than MAX_IN. -/
theorem witness_BrokenHostObligations_length :
    let s := { scripted [.host (.write 0 4 1)] with inPort := List.replicate 101 0 }
    s.script = .host (.write 0 4 1) :: [] ∧ s.busy = false ∧ s.maxIn < s.inPort.length := by decide

/-- O4. -/
theorem witness_BrokenHostObligations_read :
    let s := { busyWith 1 [] with script := [.host (.read 8 4)] }
    8 % 4 = 0 ∧ s.busy = true ∧ s.script = .host (.read 8 4) :: [] := by decide

theorem witness_IdleReadsReturnTheRegisters :
    (scripted [.host (.read 0x0C 4)]).busy = false ∧ 0x0C ≤ 0x0C ∧ 0x0C % 4 = 0 ∧
      (scripted [.host (.read 0x0C 4)]).script = .host (.read 0x0C 4) :: [] ∧
      (scripted [.host (.read 0x00 4)]).script = .host (.read 0x00 4) :: [] ∧
      (scripted [.host (.read 0x08 4)]).script = .host (.read 0x08 4) :: [] ∧
      (scripted [.host .readOut]).script = .host .readOut :: [] := by decide

theorem witness_StatusWordOfAnIdleBlock :
    (scripted [.host (.read 0x04 4)]).busy = false ∧
      (scripted [.host (.read 0x04 4)]).script = .host (.read 0x04 4) :: [] ∧
      (scripted [.host .poll]).script = .host .poll :: [] := by decide

theorem witness_BusyReadsShowBusyAndChangeNothing :
    (busyWith 1 [0x61]).busy = true ∧
      { busyWith 1 [0x61] with script := [.host (.read 0x04 4)] }.script = .host (.read 0x04 4) :: [] ∧
      { busyWith 1 [0x61] with script := [.host (.read 0x08 4)] }.script = .host (.read 0x08 4) :: [] ∧
      { busyWith 1 [0x61] with script := [.host (.read 0x0C 4)] }.script = .host (.read 0x0C 4) :: [] ∧
      { busyWith 1 [0x61] with script := [.host (.read 0x00 4)] }.script = .host (.read 0x00 4) :: [] ∧
      { busyWith 1 [0x61] with script := [.host .readOut] }.script = .host .readOut :: [] := by decide

theorem witness_WritesElsewhereAreIgnored :
    let s := { busyWith 1 [] with script := [.host (.write 0x04 4 0xFFFFFFFF)] }
    s.script = .host (.write 0x04 4 0xFFFFFFFF) :: [] ∧ 0x04 ≠ 0 ∧ 0x04 % 4 = 0 := by decide

theorem witness_CapturedInputIsIsolatedFromTheHost :
    ((busyWith 6 [1, 0]).busy = true ∧ BlockTurn (busyWith 6 [1, 0])) ∧
      (scripted [.host (.present [1])]).script = .host (.present [1]) :: [] ∧
      (scripted [.host .presentOut]).script = .host .presentOut :: [] :=
  ⟨⟨rfl, .inl rfl⟩, rfl, rfl⟩

theorem witness_ResetCancelsAndClears :
    let s := { busyWith 1 [0x61, 0x62] with treeValid := true, script := [.host .reset, .host .readOut] }
    s.script = .host .reset :: [.host .readOut] ∧ s.busy = true := by decide

theorem witness_WhatWorksAfterReset : (scripted [.host .reset]).script = .host .reset :: [] ∧ [1#8, 0] ≠ [] ∧
    isHammingCommand (.hamCorrect 0x73) = true := by decide

theorem witness_IdleBlockDoesNothing :
    idle.busy = false ∧ idle.script = [] ∧ (scripted [.block]).busy = false ∧ (scripted [.block]).script = .block :: [] := by
  decide

theorem witness_IssuedCommandEndsInFinitelyManyTurns :
    { busyWith 1 [0x61] with script := [.host .readOut, .host (.read 4 4), .host .poll] }.busy = true := rfl

theorem witness_CommandLineRunsItsCommand :
    let c := HostCommand.hamDecodeStream 6 [0x33, 0x4C]
    c.wellFormed = true ∧ (scripted (turnsOf c ++ [.host .readOut])).busy = false ∧
      (scripted (turnsOf c ++ [.host .readOut])).script = turnsOf c ++ [.host .readOut] ∧ c.expand.2.length ≤ idle.maxIn := by
  decide

theorem witness_LookupReadsOneCode :
    (HostCommand.hufLookup 0x62).wellFormed = true ∧ atSym twoLeaves.code (BitVec.ofNat 8 0x62) = some [true] := by
  refine ⟨by decide, ?_⟩
  rw [twoLeaves_code]
  decide

theorem witness_EveryStepKeepsTheInvariant :
    Inv twoLeaves ∧ step twoLeaves = .next twoLeaves :=
  ⟨⟨by decide, by decide, fun _ => rfl, by decide, witness_twoLeaves_treeInv⟩, rfl⟩

theorem witness_BuildOfEmptyTextKeepsTheTree : twoLeaves.captured = [] ∧ twoLeaves.treeValid = true := by decide

/-- The statements about HUF_BUILD of a non-empty text. -/
theorem witness_build_text :
    let s := { twoLeaves with captured := aabbbcc }
    s.captured ≠ [] ∧ s.captured.length ≤ 2 ^ 24 - 1 ∧ s.captured.dedup.length = 3 ∧ (symbolsOf s.captured).length = 3 := by
  decide +kernel

/-- BuildMergesTheTwoLeast and BuildSeedsLeavesInSymbolOrder: a leaf and an internal node of "aabbbcc". -/
theorem witness_build_nodes :
    ofNext false (onInput .hufBuild aabbbcc idle) (fun t =>
      decide (t.nleaf.toNat ≤ 3) && decide (3 < 2 * t.nleaf.toNat - 1) && decide (2 < (symbolsOf aabbbcc).length)) = true := by
  decide +kernel

/-- CodeLengthsAreBounded, BuiltCodesArePrefixFree and BuildCodesAreTreePaths: two codes, and a symbol without one. -/
theorem witness_build_codes :
    ofNext false (onInput .hufBuild aabbbcc idle) (fun t =>
      atSym t.code 0x61 == some [true, false] && atSym t.code 0x63 == some [true, true] && atSym t.code 0x64 == none) = true ∧
    (0x61 : Symbol) ∈ aabbbcc ∧ (0x64 : Symbol) ∉ aabbbcc ∧ 2 ≤ aabbbcc.dedup.length := by
  decide +kernel

theorem witness_BuildOfOneSymbol : ([0x61, 0x61] : List Byte) ≠ [] ∧ ∀ e ∈ ([0x61, 0x61] : List Byte), e = 0x61 := by decide

theorem witness_BuildOfOneSymbol_decodes :
    afterBuild [0x61, 0x61] .hufDecode [0, 2] = some (.ok, 2, [0x61, 0x61]) ∧
      afterBuild [0x61, 0x61] .hufDecode [0, 1] = some (.malformedCode, 0, []) := by decide +kernel

theorem witness_BuildIgnoresTheOrderOfTheText : ([0x61, 0x62, 0x61] : List Byte).Perm [0x61, 0x61, 0x62] := by decide

theorem witness_EncodeConcatenatesTheCodes : AllCoded twoLeaves [0x61, 0x62, 0x61] := by
  intro a ha
  rw [twoLeaves_code]
  revert a
  decide

theorem witness_EncodeConcatenatesTheCodes_unknown : ∃ a ∈ ([0x61, 0x64] : List Byte), atSym twoLeaves.code a = none :=
  ⟨0x64, by decide, by rw [twoLeaves_code]; decide⟩

theorem witness_DecodeOfNothingOrWithoutATree :
    idle.captured = [] ∧ { idle with captured := [1] }.captured ≠ [] ∧ { idle with captured := [1] }.treeValid = false := by
  decide

theorem witness_DecodeWithASingleLeaf : oneLeaf.treeValid = true ∧ IsLeafOf oneLeaf.node oneLeaf.root 0x61 ∧
    { oneLeaf with captured := [0x02, 0x00] }.captured ≠ [] ∧ (∀ e ∈ ([0x02, 0x00] : List Byte), e.getLsbD 0 = false) ∧
    (∃ e ∈ ([0x00, 0x03] : List Byte), e.getLsbD 0 = true) :=
  ⟨rfl, ⟨4, 0, oneLeaf_node _⟩, by decide, by decide, by decide⟩

theorem witness_DecodeInvertsTheCodes :
    let s := { twoLeaves with captured := [0, 1, 0] }
    s.treeValid = true ∧ TreeInv s ∧ AllCoded s [0x61, 0x62, 0x61] ∧
      s.captured.map (fun e => e.getLsbD 0) = codesOf s [0x61, 0x62, 0x61] := by
  refine ⟨rfl, ⟨fun _ => ?_, fun h => absurd h (by decide)⟩, witness_EncodeConcatenatesTheCodes, by decide +kernel⟩
  have h := witness_twoLeaves_built
  exact ⟨h.leafCount, h.rootIndex, h.leaves, h.ascending, h.internals, h.oneParent, h.validCodes, h.codePaths,
    h.singleCode⟩

theorem witness_DecodeOfAnythingElseIsMalformed :
    let s := { oneLeaf with captured := [1] }
    s.treeValid = true ∧ TreeInv s ∧
      ∀ text, AllCoded s text → s.captured.map (fun e => e.getLsbD 0) ≠ codesOf s text := by
  have h := witness_oneLeaf_built
  refine ⟨rfl, ⟨fun _ => ⟨h.leafCount, h.rootIndex, h.leaves, h.ascending, h.internals, h.oneParent, h.validCodes,
    h.codePaths, h.singleCode⟩, fun h => absurd h (by decide)⟩, fun text hc he => ?_⟩
  cases text with
  | nil => exact absurd he (by simp [codesOf])
  | cons a rest =>
    have hcode : (atSym oneLeaf.code a).isSome = true := hc a List.mem_cons_self
    have he' : [true] = (atSym oneLeaf.code a).getD [] ++ rest.flatMap fun a => (atSym oneLeaf.code a).getD [] := he
    rw [oneLeaf_code] at hcode he'
    by_cases ha : a = 0x61
    · rw [if_pos ha] at he'
      exact absurd he' (by simp)
    · rw [if_neg ha] at hcode
      exact absurd hcode (by simp)

/-- The host's turns of program P1. -/
def roundTripTurns : List Turn :=
  [.host (.present aabbbcc), .host (.write 0 4 0x00000001), .host .poll,
    .host (.write 0 4 0x00000002), .host .poll, .host .readOut, .host .presentOut,
    .host (.write 0 4 0x00000003), .host .poll, .host .readOut]

theorem witness_HuffmanRoundTrip :
    let s := scripted roundTripTurns
    aabbbcc ≠ [] ∧ aabbbcc.length ≤ s.maxIn ∧ s.busy = false ∧ s.script = roundTripTurns ∧
      ofNext false (exec .hufBuild { s with captured := aabbbcc })
        (fun t => decide ((codesOf t aabbbcc).length ≤ s.maxIn)) = true := by
  decide +kernel

theorem witness_SingleErrorIsCorrected : 1 ≤ 1 ∧ 1 ≤ 7 ∧ 7 ≤ 7 ∧ outcome (onInput (.hamCorrect 0x32) [] idle) =
    some (.ok, 0x0000007B, []) := by decide

theorem witness_MultipleErrorsPassSilently :
    2 ≤ ((List.range 7).filter fun k => (0b1100000 : CodeBlock).getLsbD k).length ∧ (1 ≠ 2) := by decide

theorem witness_EncodeStreamBlocks : (outcome (onInput .hamEncodeStream [1] idle)) = some (.ok, 1, [0x70]) := by decide

theorem witness_DecodeStreamBits :
    (8#24).toNat ≤ 4 * ([0x33, 0x4C] : List Byte).length ∧ 4 * ([0x33, 0x4C] : List Byte).length < (9#24).toNat ∧
      7 < (8#24).toNat := by decide

theorem witness_channel : List.Forall₂ AtMostOneFlip [0x33, 0x4C] [0xB3, 0x48] :=
  .cons (.inl (by decide)) (.cons (.inr ⟨5, by decide, by decide, by decide⟩) .nil)

theorem witness_StreamRoundTripWithSingleErrors :
    let bits := [true, false, true, true, false, true]
    bits.length < 2 ^ 24 ∧ { idle with captured := [1, 0, 1, 1, 0, 1] }.captured = bitElements bits ∧
      (outcome (onInput .hamEncodeStream [1, 0, 1, 1, 0, 1] idle)).map (·.2.2) = some [0x33, 0x4C] := by decide

theorem witness_HammingCommandsArePure : isHammingCommand .hamEncodeStream = true ∧
    { idle with captured := [1] }.captured = [1] := by decide

theorem witness_UnusedElementBitsAreIgnored :
    ([0x02, 0xFF] : List Byte).map (fun e => e.getLsbD 0) = ([0x00, 0x01] : List Byte).map (fun e => e.getLsbD 0) ∧
      ([0xB3] : List Byte).map (fun e => e.toNat % 128) = ([0x33] : List Byte).map (fun e => e.toNat % 128) := by decide

theorem witness_UnbuiltTreeIsUnobservable : idle.treeValid = false ∧
    ofNext false (onInput .hufBuild [0x61] idle) (fun t => t.treeValid) = true := by decide

theorem witness_NodesBeyondTheTreeAreUnobservable :
    let node : Vector Node 511 := table 511 fun k => if k.val < 3 then twoLeaves.node[k] else .leaf 0 9 k
    twoLeaves.treeValid = true ∧ TreeInv twoLeaves ∧
      ∀ k : NodeIdx, k.val < 2 * twoLeaves.nleaf.toNat - 1 → node[k] = twoLeaves.node[k] := by
  refine ⟨rfl, witness_twoLeaves_treeInv, fun k hk => ?_⟩
  have h : k.val < 3 := by simpa [twoLeaves] using hk
  simp [h]

theorem witness_NoisyChannelDeliversTheText :
    aabbbcc ≠ [] ∧ afterBuild aabbbcc .hufEncode aabbbcc = some (.ok, 11, [1, 0, 1, 0, 0, 0, 0, 1, 1, 1, 1]) ∧
      (outcome (onInput .hamEncodeStream [1, 0, 1, 0, 0, 0, 0, 1, 1, 1, 1] idle)) = some (.ok, 3, [0x5A, 0x69, 0x16]) ∧
      List.Forall₂ AtMostOneFlip [0x5A, 0x69, 0x16] [0x7A, 0x69, 0x17] := by
  refine ⟨by decide, by decide +kernel, by decide, ?_⟩
  exact .cons (.inr ⟨2, by decide, by decide, by decide⟩) (.cons (.inl rfl)
    (.cons (.inr ⟨7, by decide, by decide, by decide⟩) .nil))

end Sys2Proof.Tests
end

