-- ==== Sys2Proof/Proofs/State.lean ====
section
/-! The statements about the state (10_state.md): the values after reset (R35), and the Hamming units, which have no
state of their own (R33). -/

namespace Sys2Proof

/-- A table filled with one value holds it at every Symbol. -/
@[simp] theorem atSym_replicate {α : Type} (x : α) (a : Symbol) : atSym (Vector.replicate 256 x) a = x := by
  simp [atSym]

namespace Machine

/-- An idle block shows its own flags in STATUS: no field is a free value. -/
theorem statusRead_of_idle {s : State} (h : s.busy = false) :
    statusRead s = statusWord false s.treeValid s.err.code := by
  simp [statusRead, h]

/-! ## What each Hamming command commits, in terms of its operand and IN alone -/

theorem exec_hamGenerate (d : DataBlock) (s : State) :
    exec (.hamGenerate d) s = .next (s.completed .ok ((generate d).zeroExtend 32) []) := rfl

theorem exec_hamCorrect (w : CodeBlock) (s : State) :
    exec (.hamCorrect w) s = .next (s.completed .ok (correctResult (correct w)) []) := rfl

/-- RESULT is the number of blocks, one for each 4 bits of IN begun. -/
theorem exec_hamEncodeStream (s : State) :
    exec .hamEncodeStream s = .next (s.completed .ok (BitVec.ofNat 32 ((s.captured.length + 3) / 4))
      ((dataBlocks (s.captured.map bitOf)).map fun d => codeWordElement (generate d))) := by
  simp [exec, execHamEncodeStream, commitOk_eq_completed, dataBlocks_length]

/-- More bits are asked for than the code words of IN hold. -/
theorem exec_hamDecodeStream_of_lt {len24 : BitVec 24} {s : State} (h : 4 * s.captured.length < len24.toNat) :
    exec (.hamDecodeStream len24) s = .next (s.completed .invalidInput 0 []) := by
  simp [exec, execHamDecodeStream, commitErr_eq_completed, h]

/-- The code words of IN hold the bits that are asked for. -/
theorem exec_hamDecodeStream_of_le {len24 : BitVec 24} {s : State} (h : len24.toNat ≤ 4 * s.captured.length) :
    exec (.hamDecodeStream len24) s = .next (s.completed .ok (len24.zeroExtend 32)
      (((correctedBits (s.captured.map codeWordOf)).take len24.toNat).map bitElement)) := by
  simp [exec, execHamDecodeStream, commitOk_eq_completed, Nat.not_lt.2 h]

/-! ## The obligations -/

/-- Settles O20: the fields are the literals of `State.resetWith`; STATUS is read from an idle block, and CODE is a table
filled with `none`. -/
theorem resetStateHoldsTheStatedValues : Obligations.ResetStateHoldsTheStatedValues := by
  have status : statusRead State.reset = 0 := (statusRead_of_idle rfl).trans (by decide)
  exact ⟨rfl, rfl, rfl, rfl, rfl, rfl, rfl, status, fun a => atSym_replicate none a⟩

/-- Settles O53: the outcome that each command's equation names reads the operand and IN and no other part of the state.
HAM_DECODE_STREAM has two outcomes, and LEN24 and the length of IN decide between them. -/
theorem hammingCommandsArePure : Obligations.HammingCommandsArePure := by
  intro i input hi
  cases i with
  | hufBuild => cases hi
  | hufEncode => cases hi
  | hufDecode => cases hi
  | hamGenerate d => exact ⟨_, _, _, fun s _ => exec_hamGenerate d s⟩
  | hamCorrect w => exact ⟨_, _, _, fun s _ => exec_hamCorrect w s⟩
  | hamEncodeStream => exact ⟨_, _, _, fun s hs => hs ▸ exec_hamEncodeStream s⟩
  | hamDecodeStream len24 =>
    by_cases h : 4 * input.length < len24.toNat
    · exact ⟨_, _, _, fun s hs => exec_hamDecodeStream_of_lt (hs ▸ h)⟩
    · exact ⟨_, _, _, fun s hs => hs ▸ exec_hamDecodeStream_of_le (hs ▸ Nat.not_lt.1 h)⟩

end Machine
end Sys2Proof
end

