-- ==== Sys2Proof/Proofs/Encoding.lean ====
section
/-! The statements about the command word (30_encoding.md R73, R74). The words that decode to a command, the words that
select its row, and the words that R74 does not list are all the same: the word that `encode` writes for a command. -/

namespace Sys2Proof

open Machine

/-! ## Decode inverts encode -/

/-- A command's word has its opcode, below 16, as the low byte and the operand above it: nothing is left in RSV. -/
@[simp] theorem rsvField_encode (i : Instr) : rsvField (encode i) = 0 := by
  apply BitVec.eq_of_toNat_eq
  rw [rsvField_toNat, encode_toNat]
  cases i <;> simp <;> omega

/-- The word of every command decodes to that command. -/
theorem decode_encode (i : Instr) : decode (encode i) = .ok i := by
  cases i with
  | hufBuild | hufEncode | hufDecode | hamEncodeStream => decide
  | hamGenerate d =>
    have hd := d.isLt
    have he : (encode (.hamGenerate d)).toNat = d.toNat * 256 + 4 := encode_toNat _
    have op : (opField (encode (.hamGenerate d))).toNat = 4 := by rw [opField_toNat]; omega
    have data : data4Field (encode (.hamGenerate d)) = d := BitVec.eq_of_toNat_eq (by rw [data4Field_toNat]; omega)
    simp only [decode, rsvField_encode, if_true, op, requireZero_eq_ok, above12_toNat, data, and_true]
    omega
  | hamCorrect c =>
    have hc := c.isLt
    have he : (encode (.hamCorrect c)).toNat = c.toNat * 256 + 5 := encode_toNat _
    have op : (opField (encode (.hamCorrect c))).toNat = 5 := by rw [opField_toNat]; omega
    have word : cw7Field (encode (.hamCorrect c)) = c := BitVec.eq_of_toNat_eq (by rw [cw7Field_toNat]; omega)
    simp only [decode, rsvField_encode, if_true, op, requireZero_eq_ok, above15_toNat, word, and_true]
    omega
  | hamDecodeStream l =>
    have he : (encode (.hamDecodeStream l)).toNat = l.toNat * 256 + 7 := encode_toNat _
    have op : (opField (encode (.hamDecodeStream l))).toNat = 7 := by rw [opField_toNat]; omega
    have len : len24Field (encode (.hamDecodeStream l)) = l := BitVec.eq_of_toNat_eq (by rw [len24Field_toNat]; omega)
    simp only [decode, rsvField_encode, if_true, op, len]

/-- A word that decodes to a command is the word of that command: OP and RSV make up the low byte, the must-be-0 bits
are 0 and the others are the operand. -/
theorem eq_encode_of_decode {w : Word} {i : Instr} (h : decode w = .ok i) : w = encode i := by
  apply BitVec.eq_of_toNat_eq
  rw [encode_toNat]
  simp only [decode] at h
  split at h
  case isFalse => cases h
  case isTrue hrsv =>
    have rsv : w.toNat / 16 % 16 = 0 := by rw [← rsvField_toNat, hrsv]; rfl
    rw [opField_toNat] at h
    split at h
    case h_8 => cases h
    case h_7 =>
      cases h
      simp only [len24Field_toNat]
      omega
    all_goals
      obtain ⟨hz, rfl⟩ := (requireZero_eq_ok _ _ _).1 h
      simp only [argField_toNat, above12_toNat, above15_toNat] at hz
      simp only [data4Field_toNat, cw7Field_toNat]
      omega

/-- The words that decode to a command are one word, the one `encode` writes. -/
theorem decode_eq_ok_iff {w : Word} {i : Instr} : decode w = .ok i ↔ w = encode i :=
  ⟨eq_encode_of_decode, fun h => h ▸ decode_encode i⟩

/-! ## The rows of R72 -/

/-- The bit above the operand field: CMD from this bit on must be 0 (30_encoding.md R71). `toNat_and_rowMask` ties it to
the mask column. -/
def operandEnd : Instr → Nat
  | .hamGenerate _ => 12
  | .hamCorrect _ => 15
  | .hamDecodeStream _ => 32
  | .hufBuild | .hufEncode | .hufDecode | .hamEncodeStream => 8

/-- A mask of ones from bit `k` up and in the low byte keeps those two parts of a word. -/
theorem toNat_and_mask {k : Nat} (hk : 8 ≤ k) (hk' : k ≤ 32) (w mask : Word)
    (hhigh : mask.toNat / 2 ^ k = 2 ^ (32 - k) - 1) (hlow : mask.toNat % 2 ^ k = 255) :
    (w &&& mask).toNat = 2 ^ k * (w.toNat / 2 ^ k) + w.toNat % 256 := by
  have high : w.toNat / 2 ^ k < 2 ^ (32 - k) := by
    rw [Nat.div_lt_iff_lt_mul (by positivity), ← pow_add, Nat.sub_add_cancel hk']
    exact w.isLt
  have low : w.toNat % 2 ^ k % 256 = w.toNat % 256 := Nat.mod_mod_of_dvd _ (pow_dvd_pow 2 hk)
  rw [BitVec.toNat_and, ← Nat.div_add_mod (w.toNat &&& mask.toNat) (2 ^ k), Nat.and_div_two_pow,
    Nat.and_mod_two_pow, hhigh, hlow, Nat.and_two_pow_sub_one_eq_mod, Nat.mod_eq_of_lt high,
    Nat.and_two_pow_sub_one_eq_mod _ 8, low]

theorem operandEnd_bounds (i : Instr) : 8 ≤ operandEnd i ∧ operandEnd i ≤ 32 := by
  cases i <;> simp [operandEnd]

/-- A row's mask keeps the low byte and the must-be-0 bits above the operand. -/
theorem toNat_and_rowMask (w : Word) (i : Instr) :
    (w &&& (rowOf i).2).toNat = 2 ^ operandEnd i * (w.toNat / 2 ^ operandEnd i) + w.toNat % 256 := by
  obtain ⟨hlow, hhigh⟩ := operandEnd_bounds i
  apply toNat_and_mask hlow hhigh
  · cases i <;> simp [rowOf, operandEnd]
  · cases i <;> simp [rowOf, operandEnd]

/-- A command's word has the row's match as its low byte. -/
theorem toNat_rowMatch (i : Instr) : (rowOf i).1.toNat = (encode i).toNat % 256 := by
  rw [encode_toNat]
  cases i <;> simp [rowOf]

/-- A row selects a word when the low byte is the row's match and the must-be-0 bits above the operand are 0. -/
theorem and_rowMask_eq_match_iff (w : Word) (i : Instr) : w &&& (rowOf i).2 = (rowOf i).1 ↔
    w.toNat % 256 = (rowOf i).1.toNat ∧ w.toNat < 2 ^ operandEnd i := by
  rw [← BitVec.toNat_inj, toNat_and_rowMask]
  cases i <;> simp [operandEnd, rowOf] <;> omega

/-- A word selects a command's row and holds its operand exactly when it is the command's word. -/
theorem selects_iff {w : Word} {i : Instr} : Selects w i ↔ w = encode i := by
  have hw := w.isLt
  unfold Selects
  rw [and_rowMask_eq_match_iff, toNat_rowMatch, ← BitVec.toNat_inj, encode_toNat]
  cases i with
  | hamGenerate d => have hd := d.isLt; simp only [operandEnd]; omega
  | hamCorrect c => have hc := c.isLt; simp only [operandEnd]; omega
  | hamDecodeStream l | hufBuild | hufEncode | hufDecode | hamEncodeStream =>
    simp only [operandEnd, and_true]; omega

/-- The mask column as a function of the match column, on the matches of R72. -/
def maskOfMatch (m : Word) : Word :=
  if m = 4 then 0xFFFFF0FF else if m = 5 then 0xFFFF80FF else if m = 7 then 0x000000FF else 0xFFFFFFFF

theorem rowOf_eq (i : Instr) : rowOf i = ((rowOf i).1, maskOfMatch (rowOf i).1) := by
  cases i <;> rfl

/-- Two rows that select one word have the same match, its low byte, and so the same mask. -/
theorem rowOf_eq_of_both_select {w : Word} {i j : Instr} (hi : w &&& (rowOf i).2 = (rowOf i).1)
    (hj : w &&& (rowOf j).2 = (rowOf j).1) : rowOf i = rowOf j := by
  obtain ⟨lowi, -⟩ := (and_rowMask_eq_match_iff w i).1 hi
  obtain ⟨lowj, -⟩ := (and_rowMask_eq_match_iff w j).1 hj
  have hm : (rowOf i).1 = (rowOf j).1 := BitVec.eq_of_toNat_eq (lowi.symm.trans lowj)
  rw [rowOf_eq i, rowOf_eq j, hm]

/-! ## The illegal words of R74 -/

/-- R74's list leaves out exactly the words of commands. -/
theorem not_illegalWord_iff {w : Word} : ¬ IllegalWord w ↔ ∃ i, w = encode i := by
  have hw := w.isLt
  constructor
  · intro h
    simp only [IllegalWord, not_or] at h
    have hop : w.toNat % 16 = 1 ∨ w.toNat % 16 = 2 ∨ w.toNat % 16 = 3 ∨ w.toNat % 16 = 4 ∨ w.toNat % 16 = 5 ∨
        w.toNat % 16 = 6 ∨ w.toNat % 16 = 7 := by omega
    simp only [← BitVec.toNat_inj]
    rcases hop with hop | hop | hop | hop | hop | hop | hop
    · exact ⟨.hufBuild, by rw [encode_toNat]; simp only; omega⟩
    · exact ⟨.hufEncode, by rw [encode_toNat]; simp only; omega⟩
    · exact ⟨.hufDecode, by rw [encode_toNat]; simp only; omega⟩
    · exact ⟨.hamGenerate (data4Field w), by rw [encode_toNat]; simp only [data4Field_toNat]; omega⟩
    · exact ⟨.hamCorrect (cw7Field w), by rw [encode_toNat]; simp only [cw7Field_toNat]; omega⟩
    · exact ⟨.hamEncodeStream, by rw [encode_toNat]; simp only; omega⟩
    · exact ⟨.hamDecodeStream (len24Field w), by rw [encode_toNat]; simp only [len24Field_toNat]; omega⟩
  · rintro ⟨i, rfl⟩
    have he := encode_toNat i
    cases i with
    | hamGenerate d => have hd := d.isLt; simp only at he; unfold IllegalWord; omega
    | hamCorrect c => have hc := c.isLt; simp only at he; unfold IllegalWord; omega
    | hamDecodeStream l => simp only at he; unfold IllegalWord; omega
    | hufBuild | hufEncode | hufDecode | hamEncodeStream => simp only at he; unfold IllegalWord; omega

namespace Machine

/-- The block's turn on a word that is no command. -/
theorem step_of_not_decoded {s : State} (hb : s.busy = true) (ht : BlockTurn s) (h : ∀ i, decode s.cmd ≠ .ok i) :
    step s = .next (s.afterBlockTurn.completed .illegalCmd 0 []) := by
  rw [step_of_blockTurn hb ht]
  obtain ⟨-, -, hc⟩ | ⟨i, hi, -⟩ := complete_eq s.afterBlockTurn
  · exact hc
  · exact absurd (by simpa using hi) (h i)

/-- HUF_DECODE ends with MALFORMED_CODE or delivers a text. -/
theorem exec_hufDecode_cases (s : State) :
    exec .hufDecode s = .next (s.completed .malformedCode 0 []) ∨
      ∃ text, exec .hufDecode s = .next (s.completed .ok (BitVec.ofNat 32 text.length) text) := by
  simp only [exec, execHufDecode]
  split
  · exact .inr ⟨[], rfl⟩
  · split
    · exact .inl rfl
    · split
      · exact .inl rfl
      · exact .inr ⟨_, rfl⟩

/-- No command raises ILLEGAL_CMD. -/
theorem exec_err_ne_illegalCmd (i : Instr) (s : State) : ∃ t, exec i s = .next t ∧ t.err ≠ .illegalCmd := by
  cases i with
  | hufBuild =>
    rw [exec_hufBuild]
    split
    · exact ⟨_, rfl, by simp⟩
    · exact ⟨_, rfl, by simp⟩
  | hufEncode =>
    rw [exec_hufEncode]
    split
    · exact ⟨_, rfl, by simp⟩
    · exact ⟨_, rfl, by simp⟩
  | hufDecode =>
    obtain h | ⟨text, h⟩ := exec_hufDecode_cases s
    · exact ⟨_, h, nofun⟩
    · exact ⟨_, h, nofun⟩
  | hamGenerate d => exact ⟨_, exec_hamGenerate d s, nofun⟩
  | hamCorrect w => exact ⟨_, exec_hamCorrect w s, nofun⟩
  | hamEncodeStream => exact ⟨_, exec_hamEncodeStream s, nofun⟩
  | hamDecodeStream l =>
    obtain h | h := Nat.lt_or_ge (4 * s.captured.length) l.toNat
    · exact ⟨_, exec_hamDecodeStream_of_lt h, nofun⟩
    · exact ⟨_, exec_hamDecodeStream_of_le h, nofun⟩

/-! ## The obligations -/

/-- Settles O4: both sides of the first clause say that the word is `encode i`; a row's match is the low
byte of every word it selects; a word that decodes selects the row of its command. -/
theorem decodePicksTheOneMatchingRow : Obligations.DecodePicksTheOneMatchingRow := by
  have picks (w : Word) (i : Instr) : decode w = .ok i ↔ Selects w i := decode_eq_ok_iff.trans selects_iff.symm
  refine ⟨picks, fun w i j => rowOf_eq_of_both_select, fun s hb ht hrow => ?_⟩
  exact step_of_not_decoded hb ht fun i hi => hrow i ((picks s.cmd i).1 hi).1

/-- Settles O5: R74 lists exactly the words that `encode` never writes, and those are the words that do not decode. -/
theorem illegalEncodingsEndWithIllegalCmd : Obligations.IllegalEncodingsEndWithIllegalCmd := by
  refine ⟨fun s hb ht hill => ?_, fun w hw => ?_, exec_err_ne_illegalCmd⟩
  · exact step_of_not_decoded hb ht fun i hi => not_illegalWord_iff.2 ⟨i, decode_eq_ok_iff.1 hi⟩ hill
  · obtain ⟨i, hi⟩ := not_illegalWord_iff.1 hw
    exact ⟨i, decode_eq_ok_iff.2 hi⟩

end Machine
end Sys2Proof
end

/-! The statements about HUF_BUILD and HUF_ENCODE (40_huffman.md R103 to R108). The collection that combining works on
is, at every merge, the nodes without a parent so far; from this follow the order of the merges and the tree, and from
the tree the codes as its paths. -/

namespace Sys2Proof.Machine

/-! ## The symbols of a text -/

@[simp] theorem mem_symbolsOf {text : List Symbol} {a : Symbol} : a ∈ symbolsOf text ↔ a ∈ text := by
  simp only [symbolsOf, List.mem_filter, List.mem_map, List.mem_range, decide_eq_true_eq, and_iff_right_iff_imp]
  exact fun _ => ⟨a.toNat, a.isLt, by simp⟩

/-- A listed symbol is above the ones listed before it. -/
theorem symbolsOf_ascending (text : List Symbol) : (symbolsOf text).Pairwise (· < ·) := by
  refine (List.pairwise_map.2 (List.pairwise_lt_range.imp_of_mem fun hi hj hij => ?_)).filter _
  rw [List.mem_range] at hi hj
  simpa [BitVec.lt_def, Nat.mod_eq_of_lt hi, Nat.mod_eq_of_lt hj] using hij

theorem symbolsOf_nodup (text : List Symbol) : (symbolsOf text).Nodup :=
  (symbolsOf_ascending text).imp fun h he => by simp [he, BitVec.lt_irrefl] at h

theorem symbolsOf_length_le (text : List Symbol) : (symbolsOf text).length ≤ 256 :=
  (List.length_filter_le _ _).trans (by simp)

theorem symbolsOf_length_pos {text : List Symbol} (h : text ≠ []) : 0 < (symbolsOf text).length := by
  obtain ⟨a, ha⟩ := List.exists_mem_of_ne_nil text h
  exact List.length_pos_of_mem (mem_symbolsOf.2 ha)

/-- The distinct symbols, in the order of their values or in the order of the text. -/
theorem symbolsOf_perm_dedup (text : List Symbol) : (symbolsOf text).Perm text.dedup :=
  (List.perm_ext_iff_of_nodup (symbolsOf_nodup text) text.nodup_dedup).2 (by simp)

/-- A text of one distinct symbol. -/
theorem symbolsOf_eq_singleton {text : List Symbol} {a : Symbol} (hne : text ≠ []) (h : ∀ e ∈ text, e = a) :
    symbolsOf text = [a] := by
  obtain ⟨b, hb⟩ := List.exists_mem_of_ne_nil text hne
  have ha : a ∈ text := h b hb ▸ hb
  have members (c : Symbol) : c ∈ symbolsOf text ↔ c ∈ [a] := by
    rw [mem_symbolsOf, List.mem_singleton]
    exact ⟨h c, fun hc => hc ▸ ha⟩
  exact List.perm_singleton.1
    ((List.perm_ext_iff_of_nodup (symbolsOf_nodup text) (List.nodup_singleton a)).2 members)

/-! ## The leaves -/

/-- Seeding keeps the symbols with a positive count and numbers their leaves from `n`. -/
theorem seedFrom_map_range' (count : Nat → Nat) (s m n : Nat) :
    seedFrom ((List.range' s m).map count) s n = ((List.range' s m).filter (0 < count ·)).mapIdx
      fun k j => .leaf (BitVec.ofNat 8 j) (count j) (Fin.ofNat 511 (n + k)) := by
  induction m generalizing s n with
  | zero => rfl
  | succ m ih =>
    rw [List.range'_succ, List.map_cons, seedFrom, List.filter_cons, ih, ih]
    split <;> simp_all [List.mapIdx_cons, Nat.add_assoc, Nat.add_comm 1]

theorem toList_countSymbols (text : List Symbol) :
    (countSymbols text).toList = (List.range' 0 256).map fun j => text.count (BitVec.ofNat 8 j) := by
  have entry (j : Fin 256) : BitVec.ofFin (w := 8) j = BitVec.ofNat 8 j :=
    BitVec.eq_of_toNat_eq (by simp)
  rw [← List.range_eq_range', ← List.map_coe_finRange_eq_range, List.map_map]
  exact List.map_congr_left fun j _ => congrArg (text.count ·) (entry j)

/-- The leaf of the `k`-th symbol in ascending order: its count is the weight and `k` the creation number. -/
theorem seed_getElem? (text : List Symbol) (k : Nat) : (seed (countSymbols text))[k]? =
    (symbolsOf text)[k]?.map fun a => .leaf a (text.count a) (Fin.ofNat 511 k) := by
  have symbols : symbolsOf text =
      ((List.range' 0 256).filter fun j => 0 < text.count (BitVec.ofNat 8 j)).map (BitVec.ofNat 8) := by
    simp [symbolsOf, List.filter_map, Function.comp_def, List.range_eq_range', List.count_pos_iff]
  rw [seed, toList_countSymbols, seedFrom_map_range', symbols, List.getElem?_mapIdx, List.getElem?_map, Option.map_map]
  simp [Function.comp_def]

@[simp] theorem seed_length (text : List Symbol) : (seed (countSymbols text)).length = (symbolsOf text).length := by
  refine Nat.le_antisymm (List.getElem?_eq_none_iff.1 ?_) (List.getElem?_eq_none_iff.1 ?_)
  · simp [seed_getElem?]
  · have := seed_getElem? text (seed (countSymbols text)).length
    simpa using this.symm

/-! ## Combining -/

/-- The node that joins `a`, extracted first, and `b`, extracted second, as number `k` (40_huffman.md R104). -/
def merged (a b : Node) (k : Nat) : Node := .internal (a.weight + b.weight) a.seq b.seq (Fin.ofNat 511 k)

/-- What one merge does: the two least nodes leave the collection, and the node that joins them enters it. -/
theorem combine_succ (fuel k : Nat) {q : List Node} (hq : 2 ≤ q.length) : ∃ a b rest, q.Perm (a :: b :: rest) ∧
    (∀ y ∈ b :: rest, keyLt y a = false) ∧ (∀ y ∈ rest, keyLt y b = false) ∧
    combine (fuel + 1) k q = merged a b k :: combine fuel (k + 1) (merged a b k :: rest) := by
  match q, hq with
  | x :: xs, hq =>
    have first := extractLeast_perm x xs
    have least := extractLeast_least x xs
    match he : extractLeast x xs with
    | (a, []) =>
      have length := extractLeast_length x xs
      rw [he] at length
      simp only [List.length_cons, List.length_nil] at hq length
      omega
    | (a, y :: ys) =>
      rw [he] at first least
      have second := extractLeast_perm y ys
      refine ⟨a, (extractLeast y ys).1, (extractLeast y ys).2, first.symm.trans (.cons a second.symm),
        fun z hz => least z (second.mem_iff.1 hz), extractLeast_least y ys, ?_⟩
      simp only [combine, he]
      rfl

section Collection

variable {node : Vector Node 511} {n k : Nat}

/-- The table starts with the listed nodes. -/
def Stores (node : Vector Node 511) (nodes : List Node) : Prop :=
  ∀ (j : NodeIdx) (x : Node), nodes[j.val]? = some x → node[j] = x

theorem Stores.left {xs ys : List Node} (h : Stores node (xs ++ ys)) : Stores node xs :=
  fun j x hx => h j x (List.getElem?_append_left (List.getElem?_eq_some_iff.1 hx).1 ▸ hx)

theorem Stores.getElem? {nodes : List Node} (h : Stores node nodes) {j : NodeIdx} (hj : j.val < nodes.length) :
    nodes[j.val]? = some node[j] := by
  rw [h j _ (List.getElem?_eq_getElem hj), List.getElem?_eq_getElem hj]

/-- `InCollection` at any number of nodes, 511 included: `j` is among the first `k` nodes, and none of these has it as a
child. -/
def Unjoined (node : Vector Node 511) (n k : Nat) (j : NodeIdx) : Prop :=
  j.val < k ∧ ∀ m : NodeIdx, n ≤ m.val → m.val < k → ¬ IsParent node m j

theorem inCollection_iff {k j : NodeIdx} : InCollection node n k j ↔ Unjoined node n k.val j := Iff.rfl

/-- Node `k`, once made, is in the collection, and its children are out of it. -/
theorem unjoined_succ_iff {k j : NodeIdx} (hnk : n ≤ k.val)
    (childBelow : ∀ m j : NodeIdx, n ≤ m.val → m.val < k.val + 1 → IsParent node m j → j < m) :
    Unjoined node n (k.val + 1) j ↔ j = k ∨ (Unjoined node n k j ∧ ¬ IsParent node k j) := by
  constructor
  · rintro ⟨hj, hfree⟩
    obtain hlt | heq := Nat.lt_succ_iff_lt_or_eq.1 hj
    · exact .inr ⟨⟨hlt, fun m hm hm' => hfree m hm (Nat.lt_succ_of_lt hm')⟩, hfree k hnk (Nat.lt_succ_self _)⟩
    · exact .inl (Fin.ext heq)
  · rintro (rfl | ⟨⟨hj, hfree⟩, hk⟩)
    · exact ⟨Nat.lt_succ_self _, fun m hm hm' hp =>
        absurd (childBelow m j hm hm' hp) (Nat.not_lt.2 (Nat.le_of_lt_succ hm'))⟩
    · refine ⟨Nat.lt_succ_of_lt hj, fun m hm hm' => ?_⟩
      obtain hlt | heq := Nat.lt_succ_iff_lt_or_eq.1 hm'
      · exact hfree m hm hlt
      · exact Fin.ext heq ▸ hk

/-- The list `q` is the collection as it stands when node `k` is made, in a build of `n` leaves. -/
structure IsCollection (node : Vector Node 511) (n k : Nat) (q : List Node) : Prop where
  stored : ∀ x ∈ q, node[x.seq] = x
  distinct : (q.map Node.seq).Nodup
  unjoined : ∀ j, j ∈ q.map Node.seq ↔ Unjoined node n k j
  childBelow : ∀ m j : NodeIdx, n ≤ m.val → m.val < k → IsParent node m j → j < m

/-- What `Obligations.BuildMergesTheTwoLeast` says of node `k`. -/
def JoinsTheTwoLeast (node : Vector Node 511) (n : Nat) (k : NodeIdx) : Prop :=
  ∃ a b : NodeIdx, a ≠ b ∧ node[k] = .internal (node[a].weight + node[b].weight) a b k ∧
    InCollection node n k a ∧ InCollection node n k b ∧
    (∀ j, InCollection node n k j → j ≠ a → ExtractedBefore node a j) ∧
    (∀ j, InCollection node n k j → j ≠ a → j ≠ b → ExtractedBefore node b j)

/-- Before the first merge the collection is the leaves. -/
theorem isCollection_leaves {leaves : List Node} (hseq : ∀ (j : Nat) (x : Node), leaves[j]? = some x → x.seq.val = j)
    (hnode : Stores node leaves) :
    IsCollection node leaves.length leaves.length leaves where
  stored x hx := by
    obtain ⟨j, hj⟩ := List.mem_iff_getElem?.1 hx
    exact hnode x.seq x (hseq j x hj ▸ hj)
  distinct := by
    refine List.Nodup.of_map Fin.val ?_
    have seqs : (leaves.map Node.seq).map Fin.val = List.range leaves.length := by
      refine List.ext_getElem? fun j => ?_
      cases hj : leaves[j]? with
      | none => simp_all
      | some x => simp [List.getElem?_range (List.getElem?_eq_some_iff.1 hj).1, hj, hseq j x hj]
    exact seqs ▸ List.nodup_range
  unjoined j := by
    rw [List.mem_map]
    constructor
    · rintro ⟨x, hx, rfl⟩
      obtain ⟨i, hi⟩ := List.mem_iff_getElem?.1 hx
      have := (List.getElem?_eq_some_iff.1 hi).1
      have := hseq i x hi
      exact ⟨by omega, fun m h h' => by omega⟩
    · rintro ⟨hj, -⟩
      exact ⟨leaves[j.val], List.getElem_mem hj, Fin.ext (hseq _ _ (List.getElem?_eq_getElem hj))⟩
  childBelow m j h h' := by omega

namespace IsCollection

theorem perm {q q' : List Node} (h : IsCollection node n k q) (hp : q.Perm q') : IsCollection node n k q' where
  stored x hx := h.stored x (hp.mem_iff.2 hx)
  distinct := (hp.map Node.seq).nodup_iff.1 h.distinct
  unjoined j := by rw [← h.unjoined, (hp.map Node.seq).mem_iff]
  childBelow := h.childBelow

/-- A node of the collection that no other one is extracted before comes before every other one. -/
theorem extractedBefore {q : List Node} (h : IsCollection node n k q) {a : Node} (ha : a ∈ q) {rest : List Node}
    (hrest : ∀ y ∈ rest, y ∈ q ∧ keyLt y a = false) {j : NodeIdx} (hj : j ∈ rest.map Node.seq) (hja : j ≠ a.seq) :
    ExtractedBefore node a.seq j := by
  obtain ⟨y, hy, rfl⟩ := List.mem_map.1 hj
  obtain ⟨hyq, hlt⟩ := hrest y hy
  have before := (keyLt_total hja).resolve_left (by simp [hlt])
  rw [keyLt_iff] at before
  rw [ExtractedBefore, h.stored a ha, h.stored y hyq]
  exact before

end IsCollection

section Merge

variable {a b : Node} {rest : List Node}

/-- The next node joins the first two of the collection. -/
theorem IsCollection.joinsTheTwoLeast {k : NodeIdx} (h : IsCollection node n k (a :: b :: rest))
    (ha : ∀ y ∈ b :: rest, keyLt y a = false) (hb : ∀ y ∈ rest, keyLt y b = false) (hk : node[k] = merged a b k) :
    JoinsTheTwoLeast node n k := by
  have hne : a.seq ≠ b.seq := fun he => by simpa [he] using h.distinct
  have members (j : NodeIdx) : InCollection node n k j ↔ j = a.seq ∨ j = b.seq ∨ j ∈ rest.map Node.seq := by
    simpa using inCollection_iff.trans (h.unjoined j).symm
  refine ⟨a.seq, b.seq, hne, ?_, (members _).2 (.inl rfl), (members _).2 (.inr (.inl rfl)), fun j hj hja => ?_,
    fun j hj hja hjb => ?_⟩
  · rw [hk, h.stored a (by simp), h.stored b (by simp)]
    simp [merged]
  · have hj' := ((members j).1 hj).resolve_left hja
    exact h.extractedBefore (by simp) (rest := b :: rest) (fun y hy => ⟨.tail a hy, ha y hy⟩) (by simpa using hj') hja
  · have hj' := (((members j).1 hj).resolve_left hja).resolve_left hjb
    exact h.extractedBefore (by simp) (fun y hy => ⟨.tail a (.tail b hy), hb y hy⟩) hj' hjb

/-- Once node `k` joins the first two, it stands in the collection in their place. -/
theorem IsCollection.merge {k : NodeIdx} (h : IsCollection node n k (a :: b :: rest)) (hnk : n ≤ k.val)
    (hk : node[k] = merged a b k) : IsCollection node n (k.val + 1) (merged a b k :: rest) := by
  have number : (merged a b k).seq = k := by simp [merged, Node.seq]
  have parent (j : NodeIdx) : IsParent node k j ↔ a.seq = j ∨ b.seq = j := isParent_of_internal hk j
  have below {j : NodeIdx} (hj : j ∈ (a :: b :: rest).map Node.seq) : j < k := ((h.unjoined j).1 hj).1
  have childBelow (m j : NodeIdx) (hm : n ≤ m.val) (hm' : m.val < k.val + 1) (hp : IsParent node m j) : j < m := by
    obtain hlt | heq := Nat.lt_succ_iff_lt_or_eq.1 hm'
    · exact h.childBelow m j hm hlt hp
    · obtain rfl : m = k := Fin.ext heq
      obtain rfl | rfl := (parent j).1 hp
      · exact below (by simp)
      · exact below (by simp)
  have distinct := h.distinct
  simp only [List.map_cons, List.nodup_cons, List.mem_cons, not_or] at distinct
  obtain ⟨⟨hab, har⟩, hbr, hrest⟩ := distinct
  refine ⟨fun x hx => ?_, ?_, fun j => ?_, childBelow⟩
  · obtain rfl | hx := List.mem_cons.1 hx
    · simp [number, hk]
    · exact h.stored x (by simp [hx])
  · rw [List.map_cons, number, List.nodup_cons]
    exact ⟨fun hkr => lt_irrefl k (below (by simp [hkr])), hrest⟩
  · rw [unjoined_succ_iff hnk childBelow, ← h.unjoined, parent, List.map_cons, number]
    simp only [List.map_cons, List.mem_cons]
    constructor
    · rintro (rfl | hj)
      · exact .inl rfl
      · exact .inr ⟨.inr (.inr hj), by rintro (rfl | rfl) <;> contradiction⟩
    · rintro (rfl | ⟨rfl | rfl | hj, hnot⟩)
      · exact .inl rfl
      · exact absurd (.inl rfl) hnot
      · exact absurd (.inr rfl) hnot
      · exact .inr hj

end Merge

/-- Combining a collection of `fuel + 1` nodes into the nodes from `k` on: each of these joins the two least, and one
node is left. -/
theorem IsCollection.of_combine {fuel : Nat} {q created : List Node} (h : IsCollection node n k q) (hnk : n ≤ k)
    (hlen : q.length = fuel + 1) (hfit : k + fuel ≤ 511) (hcreated : created.length = k)
    (hnode : Stores node (created ++ combine fuel k q)) :
    (∃ x, IsCollection node n (k + fuel) [x]) ∧
      ∀ m : NodeIdx, k ≤ m.val → m.val < k + fuel → JoinsTheTwoLeast node n m := by
  induction fuel generalizing k q created with
  | zero =>
    obtain ⟨x, rfl⟩ := List.length_eq_one_iff.1 hlen
    exact ⟨⟨x, h⟩, fun m h h' => by omega⟩
  | succ fuel ih =>
    obtain ⟨k, rfl⟩ : ∃ i : NodeIdx, i.val = k := ⟨⟨k, by omega⟩, rfl⟩
    obtain ⟨a, b, rest, hperm, ha, hb, hcombine⟩ := combine_succ fuel k (by omega : 2 ≤ q.length)
    rw [hcombine] at hnode
    have hq := h.perm hperm
    have hk : node[k] = merged a b k := hnode k _ (by simp [← hcreated])
    have hlen' : (merged a b k :: rest).length = fuel + 1 := by
      have := hperm.length_eq
      simp only [List.length_cons] at this ⊢
      omega
    obtain ⟨last, others⟩ := ih (hq.merge hnk hk) (by omega) hlen' (by omega)
      (created := created ++ [merged a b k]) (by simp [hcreated]) (by simpa using hnode)
    refine ⟨(by omega : k.val + 1 + fuel = k.val + (fuel + 1)) ▸ last, fun m hm hm' => ?_⟩
    obtain hlt | heq := Nat.lt_or_eq_of_le hm
    · exact others m hlt (by omega)
    · obtain rfl : k = m := Fin.ext heq
      exact hq.joinsTheTwoLeast ha hb hk

end Collection

section Tree

variable {node : Vector Node 511} {n : Nat}

/-! ## The tree -/

/-- The first `2n - 1` nodes are `n` leaves and the `n - 1` nodes that combining makes of them. -/
structure IsTree (node : Vector Node 511) (n : Nat) : Prop where
  leaves : ∀ k : NodeIdx, k.val < n → ∃ a weight, node[k] = .leaf a weight k
  joins : ∀ k : NodeIdx, n ≤ k.val → k.val < 2 * n - 1 → JoinsTheTwoLeast node n k
  hasParent : ∀ j : NodeIdx, j.val < 2 * n - 2 → ∃ k : NodeIdx, n ≤ k.val ∧ k.val < 2 * n - 1 ∧ IsParent node k j

/-- Seeded leaves, combined until one node is left, are a tree. -/
theorem isTree_of_stores {leaves : List Node} (hpos : 0 < leaves.length) (hle : leaves.length ≤ 256)
    (hleaf : ∀ (j : Nat) (x : Node), leaves[j]? = some x → ∃ a weight, x = .leaf a weight (Fin.ofNat 511 j))
    (hnode : Stores node (leaves ++ combine (leaves.length - 1) leaves.length leaves)) : IsTree node leaves.length := by
  have start : IsCollection node leaves.length leaves.length leaves := by
    refine isCollection_leaves (fun j x hx => ?_) hnode.left
    obtain ⟨a, weight, rfl⟩ := hleaf j x hx
    have := (List.getElem?_eq_some_iff.1 hx).1
    simp only [Node.seq, Fin.val_ofNat]
    omega
  obtain ⟨⟨x, hx⟩, hjoins⟩ := start.of_combine le_rfl (by omega) (by omega) rfl hnode
  have last (j : NodeIdx) : j = x.seq ↔ Unjoined node leaves.length (leaves.length + (leaves.length - 1)) j := by
    simpa using hx.unjoined j
  refine ⟨fun k hk => ?_, fun k hk hk' => hjoins k hk (by omega), fun j hj => ?_⟩
  · obtain ⟨a, weight, he⟩ := hleaf k _ (List.getElem?_eq_getElem hk)
    exact ⟨a, weight, by simpa [he] using hnode.left k _ (List.getElem?_eq_getElem hk)⟩
  · have root : (⟨2 * leaves.length - 2, by omega⟩ : NodeIdx) = x.seq :=
      (last _).2 ⟨by simp only; omega, fun m hm hm' hp =>
        absurd (hx.childBelow m _ hm hm' hp) (by simp only [Fin.lt_def]; omega)⟩
    by_contra! hno
    have hroot : j = x.seq := (last j).2 ⟨by omega, fun m hm hm' hp => hno m hm (by omega) hp⟩
    exact hj.ne (congrArg Fin.val (hroot.trans root.symm))

namespace IsTree

/-- Two different children, created earlier. -/
theorem internal (h : IsTree node n) {k : NodeIdx} (hk : n ≤ k.val) (hk' : k.val < 2 * n - 1) :
    ∃ left right, left < k ∧ right < k ∧ left ≠ right ∧
      node[k] = .internal (node[left].weight + node[right].weight) left right k := by
  obtain ⟨a, b, hab, hnode, ⟨hak, -⟩, ⟨hbk, -⟩, -, -⟩ := h.joins k hk hk'
  exact ⟨a, b, hak, hbk, hab, hnode⟩

theorem le_of_isParent (h : IsTree node n) {k j : NodeIdx} (hp : IsParent node k j) : n ≤ k.val := by
  by_contra hlt
  obtain ⟨a, weight, hk⟩ := h.leaves k (Nat.not_le.1 hlt)
  exact not_isParent_of_leaf hk j hp

/-- A child is out of the collection from then on, so no later node takes it again. -/
theorem parent_unique (h : IsTree node n) {k m j : NodeIdx} (hk : k.val < 2 * n - 1) (hm : m.val < 2 * n - 1)
    (hkj : IsParent node k j) (hmj : IsParent node m j) : m = k := by
  have notBefore {k m : NodeIdx} (hm : m.val < 2 * n - 1) (hkj : IsParent node k j) (hmj : IsParent node m j) :
      ¬ k < m := fun hkm => by
    obtain ⟨a, b, -, hnode, ⟨-, ha⟩, ⟨-, hb⟩, -, -⟩ := h.joins m (h.le_of_isParent hmj) hm
    obtain rfl | rfl := (isParent_of_internal hnode j).1 hmj
    · exact ha k (h.le_of_isParent hkj) hkm hkj
    · exact hb k (h.le_of_isParent hkj) hkm hkj
  exact le_antisymm (not_lt.1 (notBefore hm hkj hmj)) (not_lt.1 (notBefore hk hmj hkj))

end IsTree

/-! ## Paths -/

theorem follow_append (k : NodeIdx) (p q : Bits) :
    follow node k (p ++ q) = (follow node k p).bind fun j => follow node j q := by
  induction p generalizing k with
  | nil => rfl
  | cons b p ih =>
    simp only [List.cons_append, follow]
    split
    · rfl
    · exact ih _

theorem follow_cons_of_internal {k : NodeIdx} {weight : Nat} {left right seq : NodeIdx}
    (hk : node[k] = .internal weight left right seq) (b : Bool) (p : Bits) :
    follow node k (b :: p) = follow node (if b then right else left) p := by
  simp [follow, hk]

theorem follow_cons_of_leaf {k : NodeIdx} {a : Symbol} {weight : Nat} {seq : NodeIdx}
    (hk : node[k] = .leaf a weight seq) (b : Bool) (p : Bits) : follow node k (b :: p) = none := by
  simp [follow, hk]

theorem exists_follow_of_isParent {k j : NodeIdx} (h : IsParent node k j) : ∃ b, follow node k [b] = some j := by
  obtain ⟨weight, left, right, seq, hk, rfl | rfl⟩ := h
  · exact ⟨false, follow_cons_of_internal hk _ _⟩
  · exact ⟨true, follow_cons_of_internal hk _ _⟩

namespace IsTree

/-- A path that can be followed a step starts at an internal node and goes on from an earlier one. -/
theorem follow_cons (h : IsTree node n) {k j : NodeIdx} {b : Bool} {p : Bits} (hk : k.val < 2 * n - 1)
    (hf : follow node k (b :: p) = some j) : n ≤ k.val ∧ ∃ left right, left < k ∧ right < k ∧
      node[k] = .internal (node[left].weight + node[right].weight) left right k ∧
      follow node (if b then right else left) p = some j := by
  obtain hlt | hle := Nat.lt_or_ge k.val n
  · obtain ⟨a, weight, hleaf⟩ := h.leaves k hlt
    rw [follow_cons_of_leaf hleaf] at hf
    cases hf
  · obtain ⟨left, right, hl, hr, -, hnode⟩ := h.internal hle hk
    exact ⟨hle, left, right, hl, hr, hnode, follow_cons_of_internal hnode b p ▸ hf⟩

/-- A path passes through internal nodes in descending order, so there are no more bits than such nodes. -/
theorem follow_length_le (h : IsTree node n) {k j : NodeIdx} {p : Bits} (hk : k.val < 2 * n - 1)
    (hf : follow node k p = some j) : p.length ≤ k.val + 1 - n := by
  induction p generalizing k with
  | nil => exact Nat.zero_le _
  | cons b p ih =>
    obtain ⟨hle, left, right, hl, hr, -, hrest⟩ := h.follow_cons hk hf
    have hchild : (if b then right else left).val < k.val := by cases b <;> assumption
    have := ih (by omega) hrest
    rw [List.length_cons]
    omega

/-- Every node is reached from the root: the path to its parent, and one bit. -/
theorem exists_path (h : IsTree node n) {root : NodeIdx} (hroot : root.val = 2 * n - 2) (j : NodeIdx)
    (hj : j.val ≤ root.val) : ∃ p, follow node root p = some j := by
  induction hd : root.val - j.val using Nat.strong_induction_on generalizing j with
  | _ d ih =>
    obtain heq | hlt := Nat.eq_or_lt_of_le hj
    · exact ⟨[], congrArg some (Fin.ext heq.symm)⟩
    · obtain ⟨k, hk, hk', hp⟩ := h.hasParent j (by omega)
      obtain ⟨left, right, hl, hr, -, hnode⟩ := h.internal hk hk'
      have hjk : j < k := by obtain rfl | rfl := (isParent_of_internal hnode j).1 hp <;> assumption
      rw [Fin.lt_def] at hjk
      obtain ⟨p, hpath⟩ := ih (root.val - k.val) (by omega) k (by omega) rfl
      obtain ⟨b, hb⟩ := exists_follow_of_isParent hp
      exact ⟨p ++ [b], by rw [follow_append, hpath, Option.bind_some, hb]⟩

/-- A leaf stands among the first `n` nodes. -/
theorem lt_of_isLeafOf (h : IsTree node n) {k : NodeIdx} {a : Symbol} (hk : k.val < 2 * n - 1)
    (ha : IsLeafOf node k a) : k.val < n := by
  by_contra hle
  obtain ⟨left, right, -, -, -, hnode⟩ := h.internal (Nat.not_lt.1 hle) hk
  obtain ⟨weight, seq, hleaf⟩ := ha
  rw [hnode] at hleaf
  cases hleaf

end IsTree

/-! ## The walk that assigns the codes (40_huffman.md R106) -/

/-- What the walk records is the path to a leaf. -/
theorem follow_of_mem_walk {nodes : List Node} (hnode : Stores node nodes) {fuel : Nat} {k : NodeIdx} {done : Bits}
    {a : Symbol} {bits : Bits} (h : (a, bits) ∈ walk nodes fuel k done) :
    ∃ p j, bits = done ++ p ∧ follow node k p = some j ∧ j.val < nodes.length ∧ IsLeafOf node j a := by
  induction fuel generalizing k done with
  | zero => cases h
  | succ fuel ih =>
    simp only [walk] at h
    split at h
    · cases h
    · rename_i sym weight seq hk
      obtain ⟨rfl, rfl⟩ : a = sym ∧ bits = done := by simpa using h
      exact ⟨[], k, by simp, rfl, (List.getElem?_eq_some_iff.1 hk).1, weight, seq, hnode k _ hk⟩
    · rename_i weight left right seq hk
      have child (b : Bool) (hb : (a, bits) ∈ walk nodes fuel (if b then right else left) (done ++ [b])) :
          ∃ p j, bits = done ++ p ∧ follow node k p = some j ∧ j.val < nodes.length ∧ IsLeafOf node j a := by
        obtain ⟨p, j, rfl, hf, hj⟩ := ih hb
        exact ⟨b :: p, j, by simp, by rw [follow_cons_of_internal (hnode k _ hk), hf], hj⟩
      obtain h | h := List.mem_append.1 h
      · exact child false h
      · exact child true h

/-- The walk records every leaf within its fuel. -/
theorem mem_walk_of_follow {nodes : List Node} (hnode : Stores node nodes) (tree : IsTree node n)
    (hlen : nodes.length = 2 * n - 1) {fuel : Nat} {k j : NodeIdx} {done p : Bits} {a : Symbol}
    (hk : k.val < nodes.length) (hfuel : p.length < fuel) (hf : follow node k p = some j) (ha : IsLeafOf node j a) :
    (a, done ++ p) ∈ walk nodes fuel k done := by
  induction p generalizing fuel k done with
  | nil =>
    obtain ⟨fuel, rfl⟩ := Nat.exists_eq_succ_of_ne_zero (Nat.ne_zero_of_lt hfuel)
    obtain rfl : k = j := Option.some.inj hf
    obtain ⟨weight, seq, hleaf⟩ := ha
    simp [walk, hnode.getElem? hk, hleaf]
  | cons b p ih =>
    obtain ⟨fuel, rfl⟩ := Nat.exists_eq_succ_of_ne_zero (Nat.ne_zero_of_lt hfuel)
    obtain ⟨-, left, right, hl, hr, hinternal, hrest⟩ := tree.follow_cons (hlen ▸ hk) hf
    have hchild : (if b then right else left).val < k.val := by cases b <;> assumption
    have := ih (done := done ++ [b]) (by omega) (by simpa using hfuel) hrest
    simp only [walk, hnode.getElem? hk, hinternal, List.mem_append]
    cases b with
    | false => exact .inl (by simpa using this)
    | true => exact .inr (by simpa using this)

end Tree

/-! ## The tree and the codes of a build -/

section Build

variable {text : List Symbol}

theorem buildTree_nleaf (text : List Symbol) : (buildTree text).nleaf = (symbolsOf text).length := by
  simp only [buildTree, seed_length]
  split <;> rfl

/-- A tree of one leaf is no exception: its `n - 1` merges are none. -/
theorem buildTree_nodes (text : List Symbol) : (buildTree text).nodes = seed (countSymbols text) ++
    combine ((seed (countSymbols text)).length - 1) (seed (countSymbols text)).length (seed (countSymbols text)) := by
  simp only [buildTree]
  split
  · rename_i h
    simp [h, combine]
  · rfl

theorem buildTree_root (text : List Symbol) :
    (buildTree text).root = Fin.ofNat 511 (2 * (symbolsOf text).length - 2) := by
  simp only [buildTree, seed_length]
  split
  · rename_i h
    simp [h]
  · rfl

theorem buildTree_root_val (text : List Symbol) : (buildTree text).root.val = 2 * (symbolsOf text).length - 2 := by
  have := symbolsOf_length_le text
  rw [buildTree_root, Fin.val_ofNat]
  omega

theorem buildTree_nodes_length (hne : text ≠ []) :
    (buildTree text).nodes.length = 2 * (symbolsOf text).length - 1 := by
  have := symbolsOf_length_pos hne
  rw [buildTree_nodes, List.length_append, combine_length _ _ _ (by rw [seed_length]; omega), seed_length]
  omega

@[simp] theorem atSym_codeTableOf (codes : List (Symbol × Bits)) (a : Symbol) :
    atSym (codeTableOf codes) a = codes.lookup a := by
  simp [codeTableOf]

theorem mem_of_lookup_eq_some {codes : List (Symbol × Bits)} {a : Symbol} {bits : Bits}
    (h : codes.lookup a = some bits) : (a, bits) ∈ codes := by
  obtain ⟨l, r, rfl, -⟩ := List.lookup_eq_some_iff.1 h
  simp

/-- The one symbol's code is "0"; no other symbol has a code. -/
theorem atSym_code_of_single {a : Symbol} (h : symbolsOf text = [a]) (b : Symbol) :
    atSym (buildTree text).code b = if b = a then some [false] else none := by
  have leaves : seed (countSymbols text) = [.leaf a (text.count a) 0] := by
    refine List.ext_getElem? fun k => ?_
    rw [seed_getElem?, h]
    cases k <;> rfl
  simp only [buildTree, leaves, List.length_singleton, if_true, singleCode, atSym_codeTableOf]
  obtain rfl | hb := eq_or_ne b a
  · simp
  · rw [if_neg hb, List.lookup_eq_none_iff]
    simpa using hb

/-- With two symbols or more the codes are those that the walk from the root records. -/
theorem atSym_code_of_ne_one (h : (symbolsOf text).length ≠ 1) (a : Symbol) :
    atSym (buildTree text).code a = (walk (buildTree text).nodes 256 (buildTree text).root []).lookup a := by
  have branch : (seed (countSymbols text)).length ≠ 1 := by rwa [seed_length]
  simp only [buildTree, if_neg branch, atSym_codeTableOf]

section Stored

variable {node : Vector Node 511} (hnode : Stores node (buildTree text).nodes)

include hnode

/-- The leaf of the `k`-th symbol in ascending order. -/
theorem leaf_of_build {k : NodeIdx} {a : Symbol} (hk : (symbolsOf text)[k.val]? = some a) :
    node[k] = .leaf a (text.count a) k := by
  rw [buildTree_nodes] at hnode
  exact hnode.left k _ (by simp [seed_getElem?, hk])

theorem isTree_of_build (hne : text ≠ []) : IsTree node (symbolsOf text).length := by
  rw [← seed_length]
  rw [buildTree_nodes] at hnode
  refine isTree_of_stores (by simpa using symbolsOf_length_pos hne) (by simpa using symbolsOf_length_le text)
    (fun j x hx => ?_) hnode
  rw [seed_getElem?, Option.map_eq_some_iff] at hx
  obtain ⟨a, -, rfl⟩ := hx
  exact ⟨a, text.count a, rfl⟩

theorem isLeafOf_build_iff {k : NodeIdx} (hk : k.val < (symbolsOf text).length) (a : Symbol) :
    IsLeafOf node k a ↔ (symbolsOf text)[k.val] = a := by
  have hleaf := leaf_of_build hnode (List.getElem?_eq_getElem hk)
  constructor
  · rintro ⟨weight, seq, h⟩
    rw [hleaf] at h
    cases h
    rfl
  · rintro rfl
    exact ⟨_, _, hleaf⟩

/-- A symbol has a leaf exactly when it occurs. -/
theorem exists_leaf_build_iff (a : Symbol) :
    (∃ k : NodeIdx, k.val < (symbolsOf text).length ∧ IsLeafOf node k a) ↔ a ∈ text := by
  rw [← mem_symbolsOf, List.mem_iff_getElem]
  constructor
  · rintro ⟨k, hk, ha⟩
    exact ⟨k, hk, (isLeafOf_build_iff hnode hk a).1 ha⟩
  · rintro ⟨k, hk, ha⟩
    have := symbolsOf_length_le text
    exact ⟨⟨k, by omega⟩, hk, (isLeafOf_build_iff hnode hk a).2 ha⟩

/-- A code is the path from the root to the leaf of its symbol. -/
theorem follow_code_of_build (hne : text ≠ []) (hn : (symbolsOf text).length ≠ 1) {a : Symbol} {bits : Bits}
    (hcode : atSym (buildTree text).code a = some bits) : ∃ k : NodeIdx, k.val < (symbolsOf text).length ∧
      IsLeafOf node k a ∧ follow node (buildTree text).root bits = some k := by
  rw [atSym_code_of_ne_one hn] at hcode
  obtain ⟨p, k, rfl, hf, hk, ha⟩ := follow_of_mem_walk hnode (mem_of_lookup_eq_some hcode)
  rw [buildTree_nodes_length hne] at hk
  exact ⟨k, (isTree_of_build hnode hne).lt_of_isLeafOf hk ha, ha, hf⟩

/-- A symbol has a code exactly when it occurs: the path to its leaf has at most 255 bits, and the walk's fuel
is 256. -/
theorem code_isSome_iff (hne : text ≠ []) (a : Symbol) : (atSym (buildTree text).code a).isSome ↔ a ∈ text := by
  have hpos := symbolsOf_length_pos hne
  have hle := symbolsOf_length_le text
  obtain hone | hn := eq_or_ne (symbolsOf text).length 1
  · obtain ⟨b, hb⟩ := List.length_eq_one_iff.1 hone
    rw [atSym_code_of_single hb, ← mem_symbolsOf, hb, List.mem_singleton]
    split <;> simp_all
  · have tree := isTree_of_build hnode hne
    have hroot := buildTree_root_val text
    rw [← exists_leaf_build_iff hnode]
    constructor
    · intro h
      obtain ⟨bits, hbits⟩ := Option.isSome_iff_exists.1 h
      obtain ⟨k, hk, ha, -⟩ := follow_code_of_build hnode hne hn hbits
      exact ⟨k, hk, ha⟩
    · rintro ⟨k, hk, ha⟩
      obtain ⟨p, hp⟩ := tree.exists_path hroot k (by omega)
      have hlen := tree.follow_length_le (by omega) hp
      have hmem := mem_walk_of_follow (fuel := 256) (done := []) hnode tree (buildTree_nodes_length hne)
        (by rw [buildTree_nodes_length hne]; omega) (by omega) hp ha
      rw [atSym_code_of_ne_one hn, List.lookup_isSome_iff]
      exact ⟨_, hmem, by simp⟩

end Stored

end Build

/-! ## What HUF_BUILD commits -/

theorem exec_hufBuild_of_ne {s : State} (h : s.captured ≠ []) :
    exec .hufBuild s = .next (commitBuild (buildTree s.captured) s) := by
  rw [exec_hufBuild, if_neg h]

theorem stores_commitBuild (b : Built) (s : State) : Stores (commitBuild b s).node b.nodes := by
  intro j x hx
  simp [hx]

/-- NLEAF is the number of distinct symbols, which its 9 bits hold. -/
theorem commitBuild_buildTree_nleaf (text : List Symbol) (s : State) :
    (commitBuild (buildTree text) s).nleaf.toNat = (symbolsOf text).length := by
  have := symbolsOf_length_le text
  rw [commitBuild_nleaf, buildTree_nleaf, BitVec.toNat_ofNat]
  omega

theorem isTree_commitBuild {text : List Symbol} (hne : text ≠ []) (s : State) :
    IsTree (commitBuild (buildTree text) s).node (symbolsOf text).length :=
  isTree_of_build (stores_commitBuild _ s) hne

/-- What HUF_BUILD commits is a built tree in the sense of 10_state.md R32. -/
theorem builtTree_commitBuild {text : List Symbol} (hne : text ≠ []) (s : State) :
    BuiltTree (commitBuild (buildTree text) s) := by
  have hnode := stores_commitBuild (buildTree text) s
  have tree := isTree_commitBuild hne s
  have hroot := buildTree_root_val text
  have nleaf := commitBuild_buildTree_nleaf text s
  constructor <;> simp only [nleaf, commitBuild_root, commitBuild_code]
  case leafCount => exact ⟨symbolsOf_length_pos hne, symbolsOf_length_le text⟩
  case rootIndex => exact hroot
  case leaves => exact tree.leaves
  case ascending =>
    intro j k a b hjk hk ha hb
    have hj : j.val < (symbolsOf text).length := Nat.lt_trans hjk hk
    rw [isLeafOf_build_iff hnode hj] at ha
    rw [isLeafOf_build_iff hnode hk] at hb
    exact ha ▸ hb ▸ List.pairwise_iff_getElem.1 (symbolsOf_ascending text) _ _ hj hk hjk
  case internals => exact fun k => tree.internal
  case oneParent =>
    intro j hj
    obtain ⟨k, -, hk, hp⟩ := tree.hasParent j hj
    exact ⟨k, hk, hp, fun m hm hmp => tree.parent_unique hk hm hp hmp⟩
  case validCodes => exact fun a => (code_isSome_iff hnode hne a).trans (exists_leaf_build_iff hnode a).symm
  case codePaths => exact fun hn a bits => follow_code_of_build hnode hne (by omega)
  case singleCode =>
    intro hone a bits hcode
    obtain ⟨b, hb⟩ := List.length_eq_one_iff.1 hone
    rw [atSym_code_of_single hb] at hcode
    split at hcode
    · exact (Option.some.inj hcode).symm
    · cases hcode

/-- HUF_DECODE with a tree of one leaf: each 0 bit is its symbol, and a 1 bit is malformed (40_huffman.md R109). -/
theorem exec_hufDecode_of_leaf {s : State} {a : Symbol} (hvalid : s.treeValid = true)
    (hleaf : IsLeafOf s.node s.root a) : exec .hufDecode s =
      if ∀ e ∈ s.captured, e.getLsbD 0 = false then
        .next (s.completed .ok (BitVec.ofNat 32 s.captured.length) (List.replicate s.captured.length a))
      else .next (s.completed .malformedCode 0 []) := by
  obtain ⟨weight, seq, hroot⟩ := hleaf
  have decoded : decodeBits s.node s.root (s.captured.map bitOf) =
      if ∀ e ∈ s.captured, e.getLsbD 0 = false then some (List.replicate s.captured.length a) else none := by
    simp [decodeBits, hroot, decodeSingle_eq, bitOf]
  obtain hempty | hne := eq_or_ne s.captured []
  · simp [exec, execHufDecode, hempty, commitOk_eq_completed]
  · simp only [exec, execHufDecode, if_neg hne, hvalid, Bool.not_true, Bool.false_eq_true, if_false, decoded]
    by_cases zeros : ∀ e ∈ s.captured, e.getLsbD 0 = false
    · simp only [if_pos zeros, List.length_replicate, commitOk_eq_completed]
    · simp only [if_neg zeros, commitErr_eq_completed]

/-! ## The obligations -/

/-- Settles O30: the committed table starts with the seeded leaves, and seeding keeps the symbols with a positive
count. -/
theorem buildSeedsLeavesInSymbolOrder : Obligations.BuildSeedsLeavesInSymbolOrder := by
  intro s hne
  refine ⟨_, exec_hufBuild_of_ne hne, commitBuild_buildTree_nleaf _ _, fun k hk => ?_⟩
  exact leaf_of_build (stores_commitBuild _ s) (List.getElem?_eq_getElem hk)

/-- Settles O31: every merge keeps the list of nodes equal to the collection that the table shows (`IsCollection`), and
takes the two least of that list. -/
theorem buildMergesTheTwoLeast : Obligations.BuildMergesTheTwoLeast := by
  intro s hne
  refine ⟨_, exec_hufBuild_of_ne hne, (builtTree_commitBuild hne s).rootIndex, ?_⟩
  rw [commitBuild_buildTree_nleaf]
  exact (isTree_commitBuild hne s).joins

/-- Settles O32: the one symbol is seeded to the only node, which is the root and a leaf, so decoding is that of a tree
of one leaf. -/
theorem buildOfOneSymbol : Obligations.BuildOfOneSymbol := by
  intro s a hne hall
  have symbols := symbolsOf_eq_singleton hne hall
  have code := atSym_code_of_single symbols
  have count : s.captured.count a = s.captured.length := List.count_eq_length.2 fun e he => (hall e he).symm
  have hleaf : (commitBuild (buildTree s.captured) s).node[(0 : NodeIdx)] = .leaf a s.captured.length 0 :=
    count ▸ leaf_of_build (stores_commitBuild _ s) (by simp [symbols])
  have hroot : (commitBuild (buildTree s.captured) s).root = 0 := by
    rw [commitBuild_root, buildTree_root, symbols]
    rfl
  have result : (buildTree s.captured).nleaf = 1 := by rw [buildTree_nleaf, symbols]; rfl
  refine ⟨_, exec_hufBuild_of_ne hne, rfl, by simp [result], by simp [result], hroot,
    hleaf, (code a).trans (if_pos rfl), fun b hb => (code b).trans (if_neg hb), fun bits => ?_⟩
  have decode := exec_hufDecode_of_leaf (s := { commitBuild (buildTree s.captured) s with captured := bits }) rfl
    ⟨_, _, by simpa only [hroot] using hleaf⟩
  refine ⟨fun zeros => decode.trans (if_pos zeros), fun ⟨e, he, hone⟩ => decode.trans (if_neg fun zeros => ?_)⟩
  exact absurd (zeros e he) (by simp [hone])

/-- Settles O33: the walk from the root records a path for every leaf and for nothing else. -/
theorem buildCodesAreTreePaths : Obligations.BuildCodesAreTreePaths := by
  intro s htwo
  have hne : s.captured ≠ [] := by
    intro h
    simp [h] at htwo
  have tree := builtTree_commitBuild hne s
  have htwo' : 2 ≤ (symbolsOf s.captured).length := (symbolsOf_perm_dedup _).length_eq ▸ htwo
  refine ⟨_, exec_hufBuild_of_ne hne, fun a => ?_⟩
  have valid : (atSym (commitBuild (buildTree s.captured) s).code a).isSome ↔ a ∈ s.captured :=
    code_isSome_iff (stores_commitBuild _ s) hne a
  refine ⟨fun ha => ?_, fun ha => ?_⟩
  · simpa using mt valid.1 ha
  · obtain ⟨bits, hbits⟩ := Option.isSome_iff_exists.1 (valid.2 ha)
    obtain ⟨k, -, hleaf, hpath⟩ := tree.codePaths (by rwa [commitBuild_buildTree_nleaf]) a bits hbits
    exact ⟨bits, k, hbits, hpath, hleaf⟩

/-- Settles O38: the lookup gives the concatenated codes or, when a symbol has none, nothing. -/
theorem encodeConcatenatesTheCodes : Obligations.EncodeConcatenatesTheCodes := by
  intro s
  refine ⟨fun h => ?_, fun h => ?_⟩
  · rw [exec_hufEncode, encodeText_of_coded _ _ h]
    rfl
  · rw [exec_hufEncode, (encodeText_eq_none _ _).2 h]
    rfl

end Sys2Proof.Machine

/-! The statements about what the Hamming commands deliver (41_hamming.md R154 to R157): the bits of a code word, the
named position of a received word, and the streams bit by bit. -/

namespace Sys2Proof.Machine

/-! ## Packed blocks, bit by bit and as numbers -/

/-- Position `p` is bit `7 - p` (20_memory.md R56), and there is no bit above that of position 1. -/
theorem getLsbD_packCode (c1 c2 c3 c4 c5 c6 c7 : Bool) (k : Nat) :
    (packCode c1 c2 c3 c4 c5 c6 c7).getLsbD k = [c7, c6, c5, c4, c3, c2, c1].getD k false := by
  match k with
  | 0 | 1 | 2 | 3 | 4 | 5 | 6 => revert c1 c2 c3 c4 c5 c6 c7; decide
  | k + 7 => simp [BitVec.getLsbD_of_ge]

/-- The first data bit weighs most (20_memory.md R55). -/
theorem packData_toNat (d0 d1 d2 d3 : Bool) :
    (packData d0 d1 d2 d3).toNat = 8 * d0.toNat + 4 * d1.toNat + 2 * d2.toNat + d3.toNat := by
  simp only [packData, toNat_append_eq, BitVec.toNat_ofBool]
  omega

theorem codeWordOf_eq_setWidth (e : Byte) : codeWordOf e = e.setWidth 7 :=
  (BitVec.setWidth_eq_extractLsb' (by decide)).symm

/-! ## Correction (41_hamming.md R153, R155) -/

/-- A flip at `q` changes position `q` and no other. Positions start at 1: `q = 0` changes none. -/
theorem codeBit_flipAt (w : CodeBlock) {p q : Nat} (hp : 1 ≤ p) (hp' : p ≤ 7) (hq : q ≤ 7) :
    codeBit (flipAt w q) p = (codeBit w p ^^ decide (q = p)) := by
  have mask : (1#7 <<< (7 - q)).getLsbD (7 - p) = decide (q = p) := by
    rw [← BitVec.twoPow_eq, BitVec.getLsbD_twoPow, ← Bool.decide_and, decide_eq_decide]
    omega
  rw [codeBit, flipAt, BitVec.getLsbD_xor, mask, codeBit]

/-- The three syndrome bits are the binary digits of the position: the sum fits POS. -/
theorem errorPosition_toNat (w : CodeBlock) : (errorPosition w).toNat =
    (syndrome1 w).toNat + 2 * (syndrome2 w).toNat + 4 * (syndrome4 w).toNat := by
  have h1 := (syndrome1 w).toNat_le
  have h2 := (syndrome2 w).toNat_le
  have h4 := (syndrome4 w).toNat_le
  simp only [errorPosition, BitVec.toNat_ofNat]
  omega

/-- Position 0 needs no case of its own: a flip there changes nothing. -/
theorem correct_fst (w : CodeBlock) : (correct w).1 = extractData (flipAt w (errorPosition w).toNat) := by
  simp only [correct]
  split
  · simp [flipAt, *]
  · rfl

theorem correctResult_toNat (d : DataBlock) (p : Pos) : (correctResult (d, p)).toNat = 16 * p.toNat + d.toNat := by
  rw [correctResult, toNat_append_eq, toNat_append_eq]
  simp [Nat.mul_comm]

/-! ## Streams (41_hamming.md R156, R157) -/

/-- Data bit `k` of block `j` is bit `4j + k` of the stream. -/
theorem getLsbD_dataBlocks (bits : Bits) {j k : Nat} (hj : j < (dataBlocks bits).length) (hk : k < 4) :
    (dataBlocks bits)[j].getLsbD (3 - k) = bits.getD (4 * j + k) false := by
  have h := dataBits_getElem? (dataBlocks bits)[j] k hk
  rw [dataBlocks_getElem] at h
  match k, hk with
  | 0, _ | 1, _ | 2, _ | 3, _ => simpa using h.symm

theorem correctedBits_cons (w : CodeBlock) (ws : List CodeBlock) :
    correctedBits (w :: ws) = dataBits (correct w).1 ++ correctedBits ws := rfl

/-- Bit `i` of the decoded stream is data bit `i mod 4` of the corrected block `i / 4`. -/
theorem correctedBits_getElem? (words : List CodeBlock) (i : Nat) :
    (correctedBits words)[i]? = words[i / 4]?.map fun w => (correct w).1.getLsbD (3 - i % 4) := by
  induction words generalizing i with
  | nil => simp [correctedBits]
  | cons w ws ih =>
    rw [correctedBits_cons]
    by_cases hi : i < 4
    · rw [List.getElem?_append_left hi, dataBits_getElem? _ i hi]
      simp [Nat.div_eq_of_lt, Nat.mod_eq_of_lt, hi]
    · obtain ⟨i, rfl⟩ := Nat.exists_eq_add_of_le' (Nat.le_of_not_lt hi)
      rw [List.getElem?_append_right (by simp), dataBits_length, Nat.add_sub_cancel, ih]
      simp

/-! ## The obligations -/

/-- Settles O50: the blocks of the stream of bits are what `dataBlocks` cuts, and block `j` is the witness `d`. -/
theorem encodeStreamBlocks : Obligations.EncodeStreamBlocks := by
  intro s
  refine ⟨_, exec_hamEncodeStream s, by simp [dataBlocks_length], fun j hj => ?_⟩
  rw [List.length_map] at hj
  refine ⟨(dataBlocks (s.captured.map bitOf))[j], by simp [hj, codeWordElement], fun k hk => ?_⟩
  rw [getLsbD_dataBlocks _ hj hk, List.getD_eq_getElem?_getD, List.getElem?_map]
  rfl

/-- Settles O51: when LEN24 is within the corrected bits, bit `i` lies in the block of the received word `i / 4`. -/
theorem decodeStreamBits : Obligations.DecodeStreamBits := by
  intro s len24
  rw [BitVec.ofNat_toNat]
  refine ⟨exec_hamDecodeStream_of_lt, fun hle => ⟨_, exec_hamDecodeStream_of_le hle, ?_, fun i hi => ?_⟩⟩
  · simp [correctedBits_length, hle]
  · have hblock : i / 4 < s.captured.length := by omega
    refine ⟨s.captured[i / 4], List.getElem?_eq_getElem hblock, ?_⟩
    simp [hi, hblock, correctedBits_getElem?, codeWordOf_eq_setWidth, bitElement]

/-- Settles O45: RESULT is the zero-extended word that `packCode` packs, so each bit is read off its list of positions. -/
theorem generateGivesTheCodeWord : Obligations.GenerateGivesTheCodeWord := by
  intro s d
  refine ⟨_, exec_hamGenerate d s, ?_⟩
  simp only [BitVec.getLsbD_setWidth, generate, getLsbD_packCode]
  refine ⟨rfl, rfl, rfl, rfl, rfl, rfl, rfl, fun k hk => ?_⟩
  rw [List.getD_eq_default _ _ hk, Bool.and_false]

/-- Settles O46: the data are read at positions 3, 5, 6, 7 of the word flipped at POS, where position `p` is `f p`. -/
theorem correctFlipsTheNamedPosition : Obligations.CorrectFlipsTheNamedPosition := by
  intro s w c pos f
  have hpos : (errorPosition w).toNat = pos := errorPosition_toNat w
  have flipped : ∀ p, 1 ≤ p → p ≤ 7 → (codeBit (flipAt w pos) p).toNat = f p := fun p hp hp' =>
    congrArg Bool.toNat (codeBit_flipAt w hp hp' (hpos ▸ Nat.le_of_lt_succ (errorPosition w).isLt))
  refine ⟨_, exec_hamCorrect w s, ?_⟩
  calc (correctResult (correct w)).toNat
      = 16 * (errorPosition w).toNat + (correct w).1.toNat := correctResult_toNat _ _
    _ = 16 * pos + (8 * f 3 + 4 * f 5 + 2 * f 6 + f 7) := by
        rw [correct_fst, hpos, extractData, packData_toNat]
        rw [flipped 3, flipped 5, flipped 6, flipped 7] <;> decide
    _ = 16 * pos + 8 * f 3 + 4 * f 5 + 2 * f 6 + f 7 := by omega

end Sys2Proof.Machine

/-! The statements about errors and the idle block (60_exceptions.md R202 to R204, R218). What ERR a command leaves is
said once for all commands; MALFORMED_CODE then turns on the tree walk, which fails exactly inside a code, because the
codes of a built tree are its paths from the root to a leaf. -/

namespace Sys2Proof.Machine

/-! ## The result code of every command -/

/-- The result code that a command leaves, read off the state before it (60_exceptions.md R201 to R204). -/
def errAfter (s : State) : Instr → ErrCode
  | .hufBuild => if s.captured = [] then .invalidInput else .ok
  | .hufEncode => if encodeText s.code s.captured = none then .unknownSymbol else .ok
  | .hufDecode =>
    if s.captured ≠ [] ∧ (s.treeValid = true → decodeBits s.node s.root (s.captured.map bitOf) = none) then
      .malformedCode
    else .ok
  | .hamDecodeStream len24 => if 4 * s.captured.length < len24.toNat then .invalidInput else .ok
  | .hamGenerate _ | .hamCorrect _ | .hamEncodeStream => .ok

theorem exec_hufDecode_err (s : State) : ∃ t, exec .hufDecode s = .next t ∧ t.err = errAfter s .hufDecode := by
  simp only [exec, execHufDecode]
  split
  · exact ⟨_, rfl, by simp [errAfter, *]⟩
  · split
    · exact ⟨_, rfl, by simp_all [errAfter]⟩
    · split
      · exact ⟨_, rfl, by simp_all [errAfter]⟩
      · exact ⟨_, rfl, by simp_all [errAfter]⟩

/-- Every command completes with the result code `errAfter` names. -/
theorem exec_err (i : Instr) (s : State) : ∃ t, exec i s = .next t ∧ t.err = errAfter s i := by
  cases i with
  | hufBuild =>
    rw [exec_hufBuild]
    split
    · exact ⟨_, rfl, by simp [errAfter, *]⟩
    · exact ⟨_, rfl, by simp [errAfter, *]⟩
  | hufEncode =>
    rw [exec_hufEncode]
    split
    · exact ⟨_, rfl, by simp [errAfter, *]⟩
    · exact ⟨_, rfl, by simp [errAfter, *]⟩
  | hufDecode => exact exec_hufDecode_err s
  | hamGenerate d => exact ⟨_, exec_hamGenerate d s, rfl⟩
  | hamCorrect w => exact ⟨_, exec_hamCorrect w s, rfl⟩
  | hamEncodeStream => exact ⟨_, exec_hamEncodeStream s, rfl⟩
  | hamDecodeStream l =>
    obtain h | h := Nat.lt_or_ge (4 * s.captured.length) l.toNat
    · exact ⟨_, exec_hamDecodeStream_of_lt h, (if_pos h).symm⟩
    · exact ⟨_, exec_hamDecodeStream_of_le h, (if_neg (Nat.not_lt.2 h)).symm⟩

/-! ## Paths and the tree walk, in any table -/

section Paths

variable {node : Vector Node 511} {root k j : NodeIdx}

theorem isLeaf_eq_true_iff : node[k].isLeaf = true ↔ ∃ a, IsLeafOf node k a := by
  cases h : node[k] <;> simp [IsLeafOf, Node.isLeaf, h]

theorem isLeaf_eq_false_iff :
    node[k].isLeaf = false ↔ ∃ weight left right seq, node[k] = .internal weight left right seq := by
  cases h : node[k] <;> simp [Node.isLeaf]

/-- The last step of a path. -/
theorem follow_concat {p : Bits} {b : Bool} (h : follow node k (p ++ [b]) = some j) :
    ∃ m weight left right seq, follow node k p = some m ∧ node[m] = .internal weight left right seq ∧
      (if b then right else left) = j := by
  rw [follow_append] at h
  obtain ⟨m, hm, hb⟩ := Option.bind_eq_some_iff.1 h
  cases hnode : node[m] with
  | leaf a weight seq => simp [follow_cons_of_leaf hnode] at hb
  | internal weight left right seq =>
    rw [follow_cons_of_internal hnode] at hb
    exact ⟨m, weight, left, right, seq, hm, hnode, Option.some.inj hb⟩

/-- Bits read from an internal node end at an internal node, unless some of them lead to a leaf. -/
theorem follow_inside_or_leaf (bits : Bits) (hk : node[k].isLeaf = false) :
    (∃ j, follow node k bits = some j ∧ node[j].isLeaf = false) ∨
      ∃ p rest j a, bits = p ++ rest ∧ p ≠ [] ∧ follow node k p = some j ∧ IsLeafOf node j a := by
  induction bits generalizing k with
  | nil => exact .inl ⟨k, rfl, hk⟩
  | cons b bits ih =>
    obtain ⟨weight, left, right, seq, hnode⟩ := isLeaf_eq_false_iff.1 hk
    have first := follow_cons_of_internal hnode b
    cases hchild : node[if b then right else left].isLeaf with
    | true =>
      obtain ⟨a, ha⟩ := isLeaf_eq_true_iff.1 hchild
      exact .inr ⟨[b], bits, _, a, rfl, by simp, first [], ha⟩
    | false =>
      obtain ⟨j, hj, hinside⟩ | ⟨p, rest, j, a, rfl, -, hj, ha⟩ := ih hchild
      · exact .inl ⟨j, (first bits).trans hj, hinside⟩
      · exact .inr ⟨b :: p, rest, j, a, rfl, by simp, (first p).trans hj, ha⟩

/-- The walk fails when the bits end at an internal node other than the root. -/
theorem decodeFrom_inside {bits : Bits} (hf : follow node k bits = some j) (hj : node[j].isLeaf = false)
    (hne : j ≠ root) : decodeFrom node root k bits = none := by
  induction bits generalizing k with
  | nil =>
    obtain rfl := Option.some.inj hf
    exact if_neg hne
  | cons b bits ih =>
    cases hnode : node[k] with
    | leaf a weight seq => simp [follow_cons_of_leaf hnode] at hf
    | internal weight left right seq =>
      rw [follow_cons_of_internal hnode] at hf
      simp only [decodeFrom, childOf, hnode]
      split
      next a w q hleaf =>
        cases bits with
        | nil =>
          obtain rfl := Option.some.inj hf
          simp [hleaf, Node.isLeaf] at hj
        | cons c bits => simp [follow_cons_of_leaf hleaf] at hf
      next => exact ih hf

end Paths

/-! ## The codes of a built tree are its paths -/

namespace BuiltTree

variable {s : State}

theorem root_lt (h : BuiltTree s) : s.root.val < 2 * s.nleaf.toNat - 1 := by
  have := h.leafCount
  have := h.rootIndex
  omega

/-- An internal node stands after the leaves and has two different children, created earlier. -/
theorem of_internal (h : BuiltTree s) {k left right seq : NodeIdx} {weight : Nat} (hk : k.val < 2 * s.nleaf.toNat - 1)
    (hnode : s.node[k] = .internal weight left right seq) :
    s.nleaf.toNat ≤ k.val ∧ left < k ∧ right < k ∧ left ≠ right := by
  obtain hlt | hle := Nat.lt_or_ge k.val s.nleaf.toNat
  · obtain ⟨a, w, hleaf⟩ := h.leaves k hlt
    cases hleaf.symm.trans hnode
  · obtain ⟨l, r, hl, hr, hlr, hinternal⟩ := h.internals k hle hk
    cases hinternal.symm.trans hnode
    exact ⟨hle, hl, hr, hlr⟩

/-- A leaf stands among the first NLEAF nodes. -/
theorem lt_of_isLeafOf (h : BuiltTree s) {k : NodeIdx} {a : Symbol} (hk : k.val < 2 * s.nleaf.toNat - 1)
    (ha : IsLeafOf s.node k a) : k.val < s.nleaf.toNat := by
  by_contra hle
  obtain ⟨l, r, -, -, -, hinternal⟩ := h.internals k (Nat.not_lt.1 hle) hk
  obtain ⟨weight, seq, hleaf⟩ := ha
  cases hinternal.symm.trans hleaf

/-- A symbol has one leaf. -/
theorem leaf_unique (h : BuiltTree s) {j k : NodeIdx} {a : Symbol} (hj : j.val < s.nleaf.toNat)
    (hk : k.val < s.nleaf.toNat) (hja : IsLeafOf s.node j a) (hka : IsLeafOf s.node k a) : j = k := by
  obtain hlt | heq | hgt := lt_trichotomy j k
  · exact absurd (h.ascending j k a a hlt hk hja hka) (BitVec.lt_irrefl a)
  · exact heq
  · exact absurd (h.ascending k j a a hgt hj hka hja) (BitVec.lt_irrefl a)

/-- A path leads down the table. -/
theorem follow_le (h : BuiltTree s) {k j : NodeIdx} {p : Bits} (hk : k.val < 2 * s.nleaf.toNat - 1)
    (hf : follow s.node k p = some j) : j ≤ k := by
  induction p generalizing k with
  | nil => exact (Option.some.inj hf).ge
  | cons b p ih =>
    cases hnode : s.node[k] with
    | leaf a weight seq => simp [follow_cons_of_leaf hnode] at hf
    | internal weight left right seq =>
      obtain ⟨-, hl, hr, -⟩ := h.of_internal hk hnode
      have hchild : (if b then right else left) < k := by cases b <;> assumption
      rw [follow_cons_of_internal hnode] at hf
      exact (ih (Nat.lt_trans hchild hk) hf).trans hchild.le

/-- The last step to a node from the root is from its parent, which stands after it. -/
theorem path_concat (h : BuiltTree s) {p : Bits} {b : Bool} {j : NodeIdx}
    (hf : follow s.node s.root (p ++ [b]) = some j) : ∃ m left right weight seq, follow s.node s.root p = some m ∧
      s.node[m] = .internal weight left right seq ∧ left ≠ right ∧ (if b then right else left) = j ∧
      j < m ∧ m ≤ s.root ∧ IsParent s.node m j := by
  obtain ⟨m, weight, left, right, seq, hm, hnode, hchild⟩ := follow_concat hf
  have hle := h.follow_le h.root_lt hm
  obtain ⟨-, hl, hr, hlr⟩ := h.of_internal (Nat.lt_of_le_of_lt hle h.root_lt) hnode
  have hjm : j < m := by subst hchild; cases b <;> assumption
  have hparent : left = j ∨ right = j := by cases b <;> simp_all
  exact ⟨m, left, right, weight, seq, hm, hnode, hlr, hchild, hjm, hle, (isParent_of_internal hnode j).2 hparent⟩

theorem path_lt (h : BuiltTree s) {p : Bits} {j : NodeIdx} (hp : p ≠ []) (hf : follow s.node s.root p = some j) :
    j < s.root := by
  obtain ⟨p, b, rfl⟩ := (List.eq_nil_or_concat' p).resolve_left hp
  obtain ⟨m, _, _, _, _, -, -, -, -, hjm, hle, -⟩ := h.path_concat hf
  exact hjm.trans_le hle

/-- One path leads to a node: its parent is unique, and so is the bit that picks it among its parent's children. -/
theorem path_unique (h : BuiltTree s) {p q : Bits} {j : NodeIdx} (hp : follow s.node s.root p = some j)
    (hq : follow s.node s.root q = some j) : p = q := by
  induction p using List.reverseRecOn generalizing q j with
  | nil =>
    obtain rfl := Option.some.inj hp
    by_contra hne
    exact lt_irrefl _ (h.path_lt (Ne.symm hne) hq)
  | append_singleton p b ih =>
    have hjroot := h.path_lt (by simp) hp
    obtain rfl | ⟨q, c, rfl⟩ := List.eq_nil_or_concat' q
    · exact absurd (Option.some.inj hq) hjroot.ne'
    · obtain ⟨m, left, right, _, _, hm, hnode, hlr, hb, -, hmle, hmj⟩ := h.path_concat hp
      obtain ⟨m', left', right', _, _, hm', hnode', -, hc, -, hmle', hmj'⟩ := h.path_concat hq
      obtain ⟨k, -, -, hunique⟩ := h.oneParent j (h.rootIndex ▸ hjroot)
      have hsame : m' = m := (hunique m' (Nat.lt_of_le_of_lt hmle' h.root_lt) hmj').trans
        (hunique m (Nat.lt_of_le_of_lt hmle h.root_lt) hmj).symm
      subst hsame
      cases hnode.symm.trans hnode'
      have hbit : b = c := by cases b <;> cases c <;> simp_all
      rw [ih hm hm', hbit]

/-- With an internal root, the code of a symbol is the path from the root to its leaf. -/
theorem code_eq_some_iff (h : BuiltTree s) (hroot : s.node[s.root].isLeaf = false) {a : Symbol} {p : Bits} :
    atSym s.code a = some p ↔ ∃ j, follow s.node s.root p = some j ∧ IsLeafOf s.node j a := by
  obtain ⟨weight, left, right, seq, hnode⟩ := isLeaf_eq_false_iff.1 hroot
  have htwo : 2 ≤ s.nleaf.toNat := by
    have := (h.of_internal h.root_lt hnode).1
    have := h.rootIndex
    have := h.leafCount
    omega
  refine ⟨fun hcode => ?_, fun ⟨j, hj, ha⟩ => ?_⟩
  · obtain ⟨k, -, ha, hk⟩ := h.codePaths htwo a p hcode
    exact ⟨k, hk, ha⟩
  · have hjn := h.lt_of_isLeafOf (Nat.lt_of_le_of_lt (h.follow_le h.root_lt hj) h.root_lt) ha
    obtain ⟨q, hq⟩ := Option.isSome_iff_exists.1 ((h.validCodes a).2 ⟨j, hjn, ha⟩)
    obtain ⟨k, hkn, hka, hk⟩ := h.codePaths htwo a q hq
    obtain rfl := h.leaf_unique hjn hkn ha hka
    rw [hq, h.path_unique hk hj]

/-! ## The tree walk of a built tree -/

/-- The walk reads the codes of a text as that text. -/
theorem decodeFrom_codesOf (h : BuiltTree s) (hroot : s.node[s.root].isLeaf = false) {text : List Symbol}
    (hcoded : AllCoded s text) (rest : Bits) : decodeFrom s.node s.root s.root (codesOf s text ++ rest) =
      (decodeFrom s.node s.root s.root rest).map (text ++ ·) := by
  induction text with
  | nil => simp [codesOf]
  | cons a text ih =>
    obtain ⟨p, hp⟩ := Option.isSome_iff_exists.1 (hcoded a List.mem_cons_self)
    obtain ⟨j, hj, ha⟩ := (h.code_eq_some_iff hroot).1 hp
    have hne : p ≠ [] := by
      rintro rfl
      obtain rfl := Option.some.inj hj
      exact Bool.false_ne_true (hroot.symm.trans (isLeaf_eq_true_iff.2 ⟨a, ha⟩))
    have split : codesOf s (a :: text) ++ rest = p ++ (codesOf s text ++ rest) := by simp [codesOf, hp]
    rw [split, decodeFrom_path _ _ _ _ _ _ _ hne hj ha, ih fun b hb => hcoded b (List.mem_cons_of_mem a hb),
      Option.map_map]
    rfl

theorem endsInsideACode_append {a : Symbol} {p rest : Bits} (hp : atSym s.code a = some p)
    (h : EndsInsideACode s rest) : EndsInsideACode s (p ++ rest) := by
  obtain ⟨text, rest, k, hcoded, rfl, htail⟩ := h
  refine ⟨a :: text, rest, k, ?_, by simp [codesOf, hp], htail⟩
  exact List.forall_mem_cons.2 ⟨by simp [hp], hcoded⟩

/-- The walk fails exactly when the bits end inside a code (40_huffman.md R109). -/
theorem decodeFrom_eq_none_iff (h : BuiltTree s) (hroot : s.node[s.root].isLeaf = false) (bits : Bits) :
    decodeFrom s.node s.root s.root bits = none ↔ EndsInsideACode s bits := by
  refine ⟨fun hnone => ?_, fun ⟨text, rest, k, hcoded, hbits, hne, hk, hinside⟩ => ?_⟩
  · induction hlen : bits.length using Nat.strong_induction_on generalizing bits with
    | _ len ih =>
      obtain ⟨j, hj, hinside⟩ | ⟨p, rest, j, a, rfl, hne, hj, ha⟩ := follow_inside_or_leaf bits hroot
      · have hne : bits ≠ [] := by
          rintro rfl
          simp [decodeFrom] at hnone
        exact ⟨[], bits, j, nofun, rfl, hne, hj, hinside⟩
      · rw [decodeFrom_path _ _ _ _ _ _ _ hne hj ha, Option.map_eq_none_iff] at hnone
        have shorter : rest.length < len := by
          have := List.length_pos_of_ne_nil hne
          rw [← hlen, List.length_append]
          omega
        exact endsInsideACode_append ((h.code_eq_some_iff hroot).2 ⟨j, hj, ha⟩) (ih _ shorter rest hnone rfl)
  · rw [hbits, h.decodeFrom_codesOf hroot hcoded, decodeFrom_inside hk hinside (h.path_lt hne hk).ne,
      Option.map_none]

/-- Decoding fails in two ways: a 1 bit for a tree of one leaf, or bits that end inside a code. -/
theorem decodeBits_eq_none_iff (h : BuiltTree s) (bits : Bits) : decodeBits s.node s.root bits = none ↔
    EndsInsideACode s bits ∨ (∃ a, IsLeafOf s.node s.root a) ∧ true ∈ bits := by
  cases hnode : s.node[s.root] with
  | leaf a weight seq =>
    have outside : ¬ EndsInsideACode s bits := by
      rintro ⟨_, rest, k, -, -, hne, hk, -⟩
      obtain ⟨b, rest, rfl⟩ := List.exists_cons_of_ne_nil hne
      simp [follow_cons_of_leaf hnode] at hk
    have leaf : ∃ a, IsLeafOf s.node s.root a := ⟨a, weight, seq, hnode⟩
    simp [decodeBits, hnode, decodeSingle_eq, outside, leaf]
  | internal weight left right seq =>
    have noLeaf : ¬ ∃ a, IsLeafOf s.node s.root a := by simp [IsLeafOf, hnode]
    have hroot := isLeaf_eq_false_iff.2 ⟨weight, left, right, seq, hnode⟩
    simp [decodeBits, hnode, h.decodeFrom_eq_none_iff hroot, noLeaf]

end BuiltTree

theorem decodeBits_nil (node : Vector Node 511) (root : NodeIdx) : decodeBits node root [] = some [] := by
  cases h : node[root] <;> simp [decodeBits, h, decodeSingle, decodeFrom]

/-! ## The obligations -/

/-- Settles O9: of the result codes that `errAfter` names, INVALID_INPUT is that of HUF_BUILD and of
HAM_DECODE_STREAM. -/
theorem invalidInputHasTwoCauses : Obligations.InvalidInputHasTwoCauses := by
  intro i s
  obtain ⟨t, ht, herr⟩ := exec_err i s
  refine ⟨t, ht, ?_⟩
  rw [herr]
  cases i with
  | hufBuild | hamDecodeStream => simp [errAfter]
  | hufEncode | hufDecode | hamGenerate | hamCorrect | hamEncodeStream => simp [errAfter, ite_eq_iff]

/-- Settles O10: the code lookup gives nothing exactly when a symbol has no code; without a tree, by the Huffman
invariant or by the reset, no symbol has one. -/
theorem unknownSymbolExactlyWhenNoCode : Obligations.UnknownSymbolExactlyWhenNoCode := by
  have uncoded (s : State) (hne : s.captured ≠ []) (hcode : ∀ a, atSym s.code a = none) :
      exec .hufEncode s = .next (s.completed .unknownSymbol 0 []) := by
    obtain ⟨a, ha⟩ := List.exists_mem_of_ne_nil _ hne
    exact (encodeConcatenatesTheCodes s).2 ⟨a, ha, hcode a⟩
  refine ⟨fun i s => ?_, fun s inv hvalid hne => uncoded s hne (inv.2 hvalid), fun s rest text hs hne => ?_⟩
  · obtain ⟨t, ht, herr⟩ := exec_err i s
    refine ⟨t, ht, ?_⟩
    rw [herr]
    cases i with
    | hufEncode => simp [errAfter, encodeText_eq_none]
    | hufBuild | hufDecode | hamGenerate | hamCorrect | hamEncodeStream | hamDecodeStream =>
      simp [errAfter, ite_eq_iff]
  · exact ⟨applyReset { s with script := rest }, by simp [step, nextTurn, hs, hostTurn],
      uncoded _ hne fun a => by simp⟩

/-- Settles O11: with a valid tree the decoding fails inside a code or at a 1 bit of a tree of one leaf; without one,
on any IN that is not empty. -/
theorem malformedCodeHasThreeCauses : Obligations.MalformedCodeHasThreeCauses := by
  intro i s inv
  obtain ⟨t, ht, herr⟩ := exec_err i s
  refine ⟨t, ht, ?_⟩
  rw [herr]
  cases i with
  | hufDecode =>
    cases hvalid : s.treeValid with
    | false => simp [errAfter, hvalid]
    | true =>
      have fails := (inv.1 hvalid).decodeBits_eq_none_iff (s.captured.map bitOf)
      have notEmpty (h : decodeBits s.node s.root (s.captured.map bitOf) = none) : s.captured ≠ [] := by
        intro hempty
        simp [hempty, decodeBits_nil] at h
      calc errAfter s .hufDecode = .malformedCode
          ↔ decodeBits s.node s.root (s.captured.map bitOf) = none := by simpa [errAfter, hvalid] using notEmpty
        _ ↔ EndsInsideACode s (s.captured.map bitOf) ∨
              (∃ a, IsLeafOf s.node s.root a) ∧ ∃ e ∈ s.captured, bitOf e = true := by rw [fails, List.mem_map]
        _ ↔ _ := by simp [show bitOf = fun e => e.getLsbD 0 from rfl]
  | hufBuild | hufEncode | hamGenerate | hamCorrect | hamEncodeStream | hamDecodeStream =>
    simp [errAfter, ite_eq_iff]

/-- The block's turn while no command runs (60_exceptions.md R218). -/
theorem blockTurn_of_idle {s : State} (h : s.busy = false) : blockTurn s = .next s := by
  simp [blockTurn, h]

/-- Settles O22: in both cases the turn is the block's. -/
theorem idleBlockDoesNothing : Obligations.IdleBlockDoesNothing := by
  intro s hidle
  refine ⟨fun hs => ?_, fun rest hs => ?_⟩
  · simpa only [step, nextTurn, hs] using blockTurn_of_idle hidle
  · simpa only [step, nextTurn, hs] using blockTurn_of_idle (s := { s with script := rest }) hidle

end Sys2Proof.Machine

/-! The statement about the commands after a reset (70_reset_and_hazards.md R233). -/

namespace Sys2Proof.Machine

/-- The host's turn that resets the block. -/
theorem step_of_reset {s : State} {rest : List Turn} (hs : s.script = .host .reset :: rest) :
    step s = .next (applyReset { s with script := rest }) := by
  simp [step, nextTurn, hs, hostTurn]

/-- Without a tree no bit can be decoded, whatever NODE and ROOT hold. -/
theorem exec_hufDecode_of_no_tree {s : State} (hne : s.captured ≠ []) (hvalid : s.treeValid = false) :
    exec .hufDecode s = .next (s.completed .malformedCode 0 []) := by
  simp [exec, execHufDecode, commitErr_eq_completed, hne, hvalid]

/-- Settles O21: HUF_ENCODE as in O10; HUF_DECODE finds no tree; the outcome of a Hamming command, by O53, is one for
all states with the same IN. -/
theorem whatWorksAfterReset : Obligations.WhatWorksAfterReset := by
  intro s rest input hs
  have hreset := step_of_reset hs
  refine ⟨_, hreset, fun hne => ?_, fun hne => exec_hufDecode_of_no_tree hne rfl, fun i hi u => ?_⟩
  · obtain ⟨t, ht, hencode⟩ := unknownSymbolExactlyWhenNoCode.2.2 s rest input hs hne
    cases hreset.symm.trans ht
    exact hencode
  · obtain ⟨e, r, o, houtcome⟩ := hammingCommandsArePure i input hi
    exact ⟨e, r, o, houtcome _ rfl, houtcome _ rfl⟩

end Sys2Proof.Machine

/-! The statements about the command word in both directions (30_encoding.md R71, R72). -/

namespace Sys2Proof

/-- Settles O2: the opcode and the operand are read back from the number of the word. -/
theorem decodeOfEncodeIsTheInstruction : Obligations.DecodeOfEncodeIsTheInstruction :=
  decode_encode

/-- Settles O3: a word that decodes to a command is the one word of that command. -/
theorem encodeOfDecodeIsTheWord : Obligations.EncodeOfDecodeIsTheWord :=
  fun _ _ h => (eq_encode_of_decode h).symm

/-- Settles O1, by evaluation of the decoder on the ten words. -/
theorem writtenOutWordsDecode : Obligations.WrittenOutWordsDecode := by
  unfold Obligations.WrittenOutWordsDecode
  decide

end Sys2Proof

/-! The statements about completions (10_state.md R37, 60_exceptions.md R207) and about what a command can observe
(10_state.md R31, 40_huffman.md R107, 70_reset_and_hazards.md R230, R236). A command other than HUF_BUILD reads IN, the
codes, TREE_VALID and what the tree makes of the bits of IN, and nothing else. -/

namespace Sys2Proof.Machine

/-! ## HUF_DECODE by its result -/

theorem exec_hufDecode_of_nil {s : State} (h : s.captured = []) :
    exec .hufDecode s = .next (s.completed .ok 0 []) := by
  simp [exec, execHufDecode, commitOk_eq_completed, h]

theorem exec_hufDecode_of_some {s : State} {text : List Symbol} (hvalid : s.treeValid = true)
    (h : decodeBits s.node s.root (s.captured.map bitOf) = some text) :
    exec .hufDecode s = .next (s.completed .ok (BitVec.ofNat 32 text.length) text) := by
  by_cases hnil : s.captured = []
  · obtain rfl : text = [] := by simpa [hnil, decodeBits_nil] using h.symm
    exact exec_hufDecode_of_nil hnil
  · simp [exec, execHufDecode, commitOk_eq_completed, hnil, hvalid, h]

theorem exec_hufDecode_of_none {s : State} (hvalid : s.treeValid = true)
    (h : decodeBits s.node s.root (s.captured.map bitOf) = none) :
    exec .hufDecode s = .next (s.completed .malformedCode 0 []) := by
  have hne : s.captured ≠ [] := by
    intro hnil
    simp [hnil, decodeBits_nil] at h
  simp [exec, execHufDecode, commitErr_eq_completed, hne, hvalid, h]

/-! ## The two ways a command completes -/

/-- A command other than HUF_BUILD ends with OK, or with an error, RESULT = 0 and OUT = []. -/
theorem exec_eq_ok_or_err {i : Instr} (s : State) (hi : i ≠ .hufBuild) :
    (∃ r o, exec i s = .next (s.completed .ok r o)) ∨ ∃ e, e ≠ .ok ∧ exec i s = .next (s.completed e 0 []) := by
  cases i with
  | hufBuild => exact absurd rfl hi
  | hufEncode =>
    rw [exec_hufEncode]
    split
    · exact .inr ⟨.unknownSymbol, nofun, rfl⟩
    · exact .inl ⟨_, _, rfl⟩
  | hufDecode =>
    obtain h | ⟨text, h⟩ := exec_hufDecode_cases s
    · exact .inr ⟨.malformedCode, nofun, h⟩
    · exact .inl ⟨_, _, h⟩
  | hamGenerate d => exact .inl ⟨_, _, exec_hamGenerate d s⟩
  | hamCorrect w => exact .inl ⟨_, _, exec_hamCorrect w s⟩
  | hamEncodeStream => exact .inl ⟨_, _, exec_hamEncodeStream s⟩
  | hamDecodeStream l =>
    obtain h | h := Nat.lt_or_ge (4 * s.captured.length) l.toNat
    · exact .inr ⟨.invalidInput, nofun, exec_hamDecodeStream_of_lt h⟩
    · exact .inl ⟨_, _, exec_hamDecodeStream_of_le h⟩

/-- The host agent and the command register are the same after every command. -/
theorem exec_frame (i : Instr) (s : State) : ∃ t, exec i s = .next t ∧ t.busy = false ∧ t.cmd = s.cmd ∧
    SameHostAgent s t := by
  by_cases hi : i = .hufBuild
  · subst hi
    rw [exec_hufBuild]
    split
    · exact ⟨_, rfl, rfl, rfl, rfl, rfl, rfl, rfl, rfl⟩
    · exact ⟨_, rfl, rfl, rfl, rfl, rfl, rfl, rfl, rfl⟩
  · obtain ⟨e, r, o, h⟩ := exec_eq_completed i s hi
    exact ⟨_, h, rfl, rfl, rfl, rfl, rfl, rfl, rfl⟩

/-! ## What a command observes -/

/-- Two states with the same IN, codes and TREE_VALID, whose trees make the same of IN, give every command other than
HUF_BUILD the same outcome. -/
theorem exec_same_outcome {i : Instr} {s u : State} (hi : i ≠ .hufBuild) (hcaptured : u.captured = s.captured)
    (hcode : u.code = s.code) (hvalid : u.treeValid = s.treeValid)
    (hdecode : s.treeValid = true →
      decodeBits u.node u.root (s.captured.map bitOf) = decodeBits s.node s.root (s.captured.map bitOf)) :
    ∃ e r o, exec i s = .next (s.completed e r o) ∧ exec i u = .next (u.completed e r o) := by
  have hamming (h : isHammingCommand i = true) :
      ∃ e r o, exec i s = .next (s.completed e r o) ∧ exec i u = .next (u.completed e r o) := by
    obtain ⟨e, r, o, houtcome⟩ := hammingCommandsArePure i s.captured h
    exact ⟨e, r, o, houtcome s rfl, houtcome u hcaptured⟩
  cases i with
  | hufBuild => exact absurd rfl hi
  | hufEncode =>
    rw [exec_hufEncode, exec_hufEncode, hcode, hcaptured]
    split
    · exact ⟨_, _, _, rfl, rfl⟩
    · exact ⟨_, _, _, rfl, rfl⟩
  | hufDecode =>
    by_cases hnil : s.captured = []
    · exact ⟨_, _, _, exec_hufDecode_of_nil hnil, exec_hufDecode_of_nil (hcaptured.trans hnil)⟩
    cases htree : s.treeValid with
    | false =>
      exact ⟨_, _, _, exec_hufDecode_of_no_tree hnil htree,
        exec_hufDecode_of_no_tree (hcaptured ▸ hnil) (hvalid.trans htree)⟩
    | true =>
      have hsame := hdecode htree
      rw [← hcaptured] at hsame
      cases hresult : decodeBits s.node s.root (s.captured.map bitOf) with
      | none =>
        exact ⟨_, _, _, exec_hufDecode_of_none htree hresult,
          exec_hufDecode_of_none (hvalid.trans htree) (by rw [hsame, hcaptured, hresult])⟩
      | some text =>
        exact ⟨_, _, _, exec_hufDecode_of_some htree hresult,
          exec_hufDecode_of_some (hvalid.trans htree) (by rw [hsame, hcaptured, hresult])⟩
  | hamGenerate d => exact hamming rfl
  | hamCorrect w => exact hamming rfl
  | hamEncodeStream => exact hamming rfl
  | hamDecodeStream l => exact hamming rfl

/-- Two states with the same IN: HUF_BUILD fails in both or commits the same tree in both. -/
theorem exec_hufBuild_same_outcome {s u : State} (hcaptured : u.captured = s.captured) :
    (s.captured = [] ∧ exec .hufBuild s = .next (commitErr .invalidInput s) ∧
        exec .hufBuild u = .next (commitErr .invalidInput u)) ∨
      ∃ b, exec .hufBuild s = .next (commitBuild b s) ∧ exec .hufBuild u = .next (commitBuild b u) := by
  rw [exec_hufBuild, exec_hufBuild, hcaptured]
  split
  · exact .inl ⟨‹_›, rfl, rfl⟩
  · exact .inr ⟨_, rfl, rfl⟩

/-- The completion does not see what the host presents. -/
theorem complete_of_inPort (s : State) (later : List Byte) : ∃ t, complete s = .next t ∧
    complete { s with inPort := later } = .next { t with inPort := later } := by
  simp only [complete]
  split
  · exact ⟨_, rfl, rfl⟩
  · rename_i i _
    by_cases hi : i = .hufBuild
    · subst hi
      obtain ⟨-, hs, hu⟩ | ⟨b, hs, hu⟩ := exec_hufBuild_same_outcome (s := s) (u := { s with inPort := later }) rfl
      · exact ⟨_, hs, hu⟩
      · exact ⟨_, hs, hu⟩
    · obtain ⟨e, r, o, hs, hu⟩ :=
        exec_same_outcome (s := s) (u := { s with inPort := later }) hi rfl rfl rfl fun _ => rfl
      exact ⟨_, hs, hu⟩

/-! ## The obligations -/

/-- Settles O6: the block's turn is the completion, which runs what the latched word decodes to. -/
theorem blockTurnRunsTheDecodedCommand : Obligations.BlockTurnRunsTheDecodedCommand := by
  intro s i hb ht hi
  rw [step_of_blockTurn hb ht, complete, afterBlockTurn_cmd, hi]

/-- Settles O7: an illegal word and a failing command write the same fields; a command that succeeds writes RESULT and
OUT besides, and only HUF_BUILD more than that. -/
theorem completionCommitsAtomically : Obligations.CompletionCommitsAtomically := by
  intro s hb ht
  rw [step_of_blockTurn hb ht]
  obtain ⟨r, -, hc⟩ | ⟨i, hi, hc⟩ := complete_eq s.afterBlockTurn
  · exact ⟨_, hc, rfl, fun _ => rfl, nofun⟩
  rw [afterBlockTurn_cmd] at hi
  rw [hc]
  by_cases hbuild : i = .hufBuild
  · subst hbuild
    rw [exec_hufBuild]
    split
    · exact ⟨_, rfl, rfl, fun _ => rfl, nofun⟩
    · exact ⟨_, rfl, rfl, fun h => absurd rfl h, fun _ => ⟨_, hi, fun h => absurd rfl h⟩⟩
  · obtain ⟨r, o, h⟩ | ⟨e, he, h⟩ := exec_eq_ok_or_err s.afterBlockTurn hbuild
    · exact ⟨_, h, rfl, fun h => absurd rfl h, fun _ => ⟨i, hi, fun _ => rfl⟩⟩
    · exact ⟨_, h, rfl, fun _ => rfl, fun hok => absurd hok he⟩

/-- Settles O8: the frame of a completion, and of what HUF_BUILD commits. -/
theorem commandsLeaveTheRestUnchanged : Obligations.CommandsLeaveTheRestUnchanged := by
  intro i s
  obtain ⟨t, ht, -, hcmd, hhost⟩ := exec_frame i s
  refine ⟨t, ht, hcmd, hhost, fun hi => ?_⟩
  obtain ⟨e, r, o, h⟩ := exec_eq_completed i s hi
  cases ht.symm.trans h
  exact ⟨⟨rfl, rfl, rfl, rfl, rfl⟩, rfl, rfl⟩

end Sys2Proof.Machine

/-! The statements about one turn of the host (20_memory.md R51, R52, R57; 60_exceptions.md R219) and about runs of
several turns (10_state.md R37; 30_encoding.md R76): one equation per host action, then what each action shows. -/

namespace Sys2Proof.Machine

/-! ## One turn -/

theorem step_of_host {s : State} {a : HostAction} {rest : List Turn} (hs : s.script = .host a :: rest) :
    step s = hostTurn a rest s := by
  simp only [step, nextTurn, hs]

/-- O3 of 60_exceptions.md R219: an access that is not one aligned 32-bit access. -/
theorem accessOk_eq_false {offset bytes : Nat} (h : ¬ (bytes = 4 ∧ offset % 4 = 0)) : accessOk offset bytes = false :=
  Bool.eq_false_iff.2 (mt (accessOk_iff offset bytes).1 h)

theorem busRead_of_aligned {offset : Nat} (h : offset % 4 = 0) (s : State) :
    busRead offset 4 s = .next (readRegister offset s) := by
  simp [busRead, (accessOk_iff offset 4).2 ⟨rfl, h⟩]

theorem busWrite_of_idle {s : State} (w : Word) (hidle : s.busy = false) (hlen : s.inPort.length ≤ s.maxIn) :
    busWrite 0 4 w s = .next (issue w s) := by
  simp [busWrite, accessOk, cmdOffset, hidle, Nat.not_lt.2 hlen]

theorem busWrite_elsewhere {offset : Nat} (w : Word) (hne : offset ≠ 0) (h : offset % 4 = 0) (s : State) :
    busWrite offset 4 w s = .next s := by
  simp [busWrite, (accessOk_iff offset 4).2 ⟨rfl, h⟩, cmdOffset, hne]

/-- A read of CMD or of a reserved offset returns 0, busy or not. -/
theorem registerRead_elsewhere {offset : Nat} (h : offset = 0 ∨ 0x0C ≤ offset) (s : State) :
    registerRead offset s = 0 := by
  rw [registerRead, if_neg, if_neg]
  · simp only [resultOffset]; omega
  · simp only [statusOffset]; omega

/-- A read of an idle block draws no free value. -/
theorem readRegister_of_idle {s : State} (hidle : s.busy = false) (offset : Nat) :
    readRegister offset s = { s with rdata := registerRead offset s } := by
  simp [readRegister, drawsAfterRead, hidle]

/-- A read of a busy block draws one free value. -/
theorem readRegister_of_busy {s : State} (hbusy : s.busy = true) (offset : Nat) :
    readRegister offset s = { s with rdata := registerRead offset s, draws := s.draws + 1 } := by
  simp [readRegister, drawsAfterRead, hbusy]

/-- The host's read of STATUS from an idle block. -/
theorem readStatus_of_idle {s : State} (hidle : s.busy = false) :
    readRegister statusOffset s = { s with rdata := statusWord false s.treeValid s.err.code } := by
  rw [readRegister_of_idle hidle, registerRead, if_pos rfl, statusRead_of_idle hidle]

theorem readOut_of_idle {s : State} (hidle : s.busy = false) : readOut s = { s with rout := s.out } := by
  simp [readOut, drawsAfterRead, outRead, hidle]

theorem step_of_read {s : State} {offset : Nat} {rest : List Turn} (hs : s.script = .host (.read offset 4) :: rest)
    (h : offset % 4 = 0) : step s = .next (readRegister offset { s with script := rest }) :=
  (step_of_host hs).trans (busRead_of_aligned h _)

theorem step_of_readOut {s : State} {rest : List Turn} (hs : s.script = .host .readOut :: rest) :
    step s = .next (readOut { s with script := rest }) :=
  step_of_host hs

/-- A poll of an idle block is a read of STATUS. -/
theorem step_of_poll {s : State} {rest : List Turn} (hs : s.script = .host .poll :: rest) (hidle : s.busy = false) :
    step s = .next { s with script := rest, rdata := statusWord false s.treeValid s.err.code } := by
  simp only [step_of_host hs, hostTurn]
  rw [if_neg (by simp [hidle])]
  exact congrArg _ (readStatus_of_idle (s := { s with script := rest }) hidle)

theorem step_of_cmdWrite {s : State} {rest : List Turn} {w : Word} (hs : s.script = .host (.write 0 4 w) :: rest)
    (hidle : s.busy = false) (hlen : s.inPort.length ≤ s.maxIn) :
    step s = .next { s with script := rest, cmd := w, captured := s.inPort, busy := true } :=
  (step_of_host hs).trans (busWrite_of_idle (s := { s with script := rest }) w hidle hlen)

theorem afterBlockTurn_of_inPort (s : State) (later : List Byte) :
    { s with inPort := later }.afterBlockTurn = { s.afterBlockTurn with inPort := later } := by
  cases h : s.script with
  | nil => simp [State.afterBlockTurn, h]
  | cons turn rest => cases turn <;> simp [State.afterBlockTurn, h]

/-! ## STATUS as a word -/

/-- The fields of STATUS (10_state.md R24) as digits. -/
theorem statusWord_toNat (busy treeValid : Bool) (err : BitVec 4) :
    (statusWord busy treeValid err).toNat = busy.toNat + 2 * treeValid.toNat + 16 * err.toNat := by
  simp only [statusWord, toNat_append_eq, BitVec.toNat_ofBool, BitVec.toNat_ofNat]
  omega

theorem getLsbD_statusWord_low (treeValid : Bool) (err : BitVec 4) :
    (statusWord true treeValid err).getLsbD 0 = true ∧ (statusWord true treeValid err).getLsbD 2 = false ∧
      (statusWord true treeValid err).getLsbD 3 = false := by
  revert treeValid err
  decide

theorem getLsbD_statusWord_high (busy treeValid : Bool) (err : BitVec 4) {k : Nat} (hk : 8 ≤ k) :
    (statusWord busy treeValid err).getLsbD k = false := by
  have hbusy := busy.toNat_le
  have hvalid := treeValid.toNat_le
  have hnumber := statusWord_toNat busy treeValid err
  have hpow : 2 ^ 8 ≤ 2 ^ k := Nat.pow_le_pow_right (by decide) hk
  exact Nat.testBit_lt_two_pow (by omega)

/-! ## Runs -/

theorem run_succ_of_next {s t : State} (h : step s = .next t) (k : Nat) : core.run (k + 1) s = core.run k t := by
  have hcore : core.step s = .next t := h
  simp only [Host.Core.run, hcore]

theorem run_succ_of_refused {s : State} {r : Refusal} (h : step s = .refused r) (k : Nat) :
    core.run (k + 1) s = .refused r := by
  have hcore : core.step s = .refused r := h
  simp only [Host.Core.run, hcore]

theorem run_add {s t : State} {m : Nat} (h : core.run m s = .next t) (k : Nat) : core.run (m + k) s = core.run k t := by
  induction m generalizing s with
  | zero =>
    cases h
    rw [Nat.zero_add]
  | succ m ih =>
    rw [Nat.succ_add]
    cases hstep : step s with
    | next u =>
      rw [run_succ_of_next hstep] at h ⊢
      exact ih h
    | fault r => cases r
    | refused r =>
      rw [run_succ_of_refused hstep] at h
      cases h

theorem blockTurn_or_host (s : State) : BlockTurn s ∨ ∃ a rest, s.script = .host a :: rest := by
  cases hs : s.script with
  | nil => exact .inl (.inl hs)
  | cons turn rest =>
    cases turn with
    | block => exact .inl (.inr (.inl ⟨rest, hs⟩))
    | host a => exact .inr ⟨a, rest, rfl⟩

/-- A step of a busy block is refused, ends the command, or is a host turn during the command. -/
theorem step_of_busy {s : State} (hbusy : s.busy = true) : (∃ r, step s = .refused r) ∨
    ∃ t, step s = .next t ∧ (t.busy = false ∨ ∃ a, s.script = a :: t.script ∧ t.busy = true) := by
  have completed (ht : BlockTurn s) : ∃ t, step s = .next t ∧
      (t.busy = false ∨ ∃ a, s.script = a :: t.script ∧ t.busy = true) := by
    obtain ⟨t, hc, hidle, -⟩ := complete_next s.afterBlockTurn
    exact ⟨t, (step_of_blockTurn hbusy ht).trans hc, .inl hidle⟩
  obtain ht | ⟨a, rest, hs⟩ := blockTurn_or_host s
  · exact .inr (completed ht)
  · have hstep := step_of_host hs
    cases a with
    | present l => exact .inr ⟨_, hstep, .inr ⟨_, hs, hbusy⟩⟩
    | presentOut => exact .inr ⟨_, hstep, .inr ⟨_, hs, hbusy⟩⟩
    | readOut => exact .inr ⟨_, hstep, .inr ⟨_, hs, hbusy⟩⟩
    | reset => exact .inr ⟨_, hstep, .inl rfl⟩
    | poll => exact .inr (completed (.inr (.inr ⟨rest, hs⟩)))
    | read offset bytes =>
      cases h : busRead offset bytes { s with script := rest } with
      | next t =>
        obtain rfl := busRead_next h
        exact .inr ⟨_, hstep.trans h, .inr ⟨_, hs, hbusy⟩⟩
      | fault r => cases r
      | refused r => exact .inl ⟨r, hstep.trans h⟩
    | write offset bytes v =>
      cases h : busWrite offset bytes v { s with script := rest } with
      | next t =>
        obtain ⟨-, hidle, -⟩ | ⟨-, rfl⟩ := busWrite_next h
        · exact absurd hidle (by simp [hbusy])
        · exact .inr ⟨_, hstep.trans h, .inr ⟨_, hs, hbusy⟩⟩
      | fault r => cases r
      | refused r => exact .inl ⟨r, hstep.trans h⟩

/-- A poll of a busy block completes the command and stays in the script. -/
theorem step_of_poll_of_busy {s : State} {i : Instr} {rest : List Turn} (hs : s.script = .host .poll :: rest)
    (hbusy : s.busy = true) (hcmd : s.cmd = encode i) : step s = exec i s := by
  have stays : s.afterBlockTurn = s := by simp only [State.afterBlockTurn, hs]
  rw [blockTurnRunsTheDecodedCommand s i hbusy (.inr (.inr ⟨rest, hs⟩)) (hcmd ▸ decode_encode i), stays]

/-- The write of a command's word to an idle block, and the poll that follows: the issue, the completion, and the read
of STATUS that ends the poll. -/
theorem run_write_poll {s : State} {i : Instr} {rest : List Turn}
    (hs : s.script = .host (.write 0 4 (encode i)) :: .host .poll :: rest) (hidle : s.busy = false)
    (hlen : s.inPort.length ≤ s.maxIn) :
    ∃ t, exec i
        { s with script := .host .poll :: rest, cmd := encode i, captured := s.inPort, busy := true } = .next t ∧
      core.run 3 s = .next { t with script := rest, rdata := statusWord false t.treeValid t.err.code } := by
  obtain ⟨t, ht, htidle, -, -, hscript, -⟩ := exec_frame i
    { s with script := .host .poll :: rest, cmd := encode i, captured := s.inPort, busy := true }
  refine ⟨t, ht, ?_⟩
  rw [run_succ_of_next (step_of_cmdWrite hs hidle hlen),
    run_succ_of_next ((step_of_poll_of_busy rfl rfl rfl).trans ht), run_succ_of_next (step_of_poll hscript htidle)]
  rfl

/-! ## The obligations -/

/-- Settles O12: the write finds the block idle and IN within MAX_IN. -/
theorem cmdWriteIssuesTheCommand : Obligations.CmdWriteIssuesTheCommand :=
  fun _ _ _ => step_of_cmdWrite

/-- Settles O13: the three tests of a register access, in their order; a read and a completion are never refused. -/
theorem brokenHostObligationsAreRefused : Obligations.BrokenHostObligationsAreRefused := by
  refine ⟨fun s rest offset bytes w hs hbad => ?_, fun s rest offset bytes hs hbad => ?_, fun s rest w hs hbusy => ?_,
    fun s rest w hs hidle hlong => ?_, fun s rest offset haligned _ hs => ?_, fun s hbusy hturn => ?_⟩
  · simp [step_of_host hs, hostTurn, busWrite, accessOk_eq_false hbad]
  · simp [step_of_host hs, hostTurn, busRead, accessOk_eq_false hbad]
  · simp [step_of_host hs, hostTurn, busWrite, accessOk, cmdOffset, hbusy]
  · simp [step_of_host hs, hostTurn, busWrite, accessOk, cmdOffset, hidle, hlong]
  · obtain hs | hs := hs
    · exact ⟨_, step_of_read hs haligned⟩
    · exact ⟨_, step_of_readOut hs⟩
  · obtain ⟨t, ht, hidle, -⟩ := complete_next s.afterBlockTurn
    exact ⟨t, (step_of_blockTurn hbusy hturn).trans ht, hidle⟩

/-- Settles O14: the register at the offset is read, and an idle block draws nothing. -/
theorem idleReadsReturnTheRegisters : Obligations.IdleReadsReturnTheRegisters := by
  intro s rest hidle
  have idle : { s with script := rest }.busy = false := hidle
  refine ⟨fun hs => ?_, fun hs => ?_, fun offset hoffset haligned hs => ?_, fun hs => ?_⟩
  · rw [step_of_read hs rfl, readRegister_of_idle idle, registerRead_elsewhere (.inl rfl)]
  · rw [step_of_read hs rfl, readRegister_of_idle idle]
    simp [registerRead, statusOffset, resultOffset, hidle]
  · rw [step_of_read hs haligned, readRegister_of_idle idle, registerRead_elsewhere (.inr hoffset)]
  · rw [step_of_readOut hs, readOut_of_idle idle]

/-- Settles O15: a read and a poll return the same word; its number is that of its fields. -/
theorem statusWordOfAnIdleBlock : Obligations.StatusWordOfAnIdleBlock := by
  intro s rest hidle hs
  refine ⟨statusWord false s.treeValid s.err.code, ?_, ?_⟩
  · obtain hs | hs := hs
    · rw [step_of_read hs rfl]
      exact congrArg _ (readStatus_of_idle (s := { s with script := rest }) hidle)
    · exact step_of_poll hs hidle
  · rw [statusWord_toNat, Bool.toNat_false, Nat.zero_add]
    cases s.err <;> rfl

/-- Settles O16: STATUS is put together from BUSY = 1 and two free values, and every other field of it is 0. -/
theorem busyReadsShowBusyAndChangeNothing : Obligations.BusyReadsShowBusyAndChangeNothing := by
  intro s rest hbusy
  have busy : { s with script := rest }.busy = true := hbusy
  refine ⟨fun hs => ?_, fun hs => ?_, fun offset hoffset haligned hs => ?_, fun hs => ?_⟩
  · refine ⟨statusRead s, ?_, ?_⟩
    · rw [step_of_read hs rfl, readRegister_of_busy busy]
      rfl
    · rw [statusRead, if_pos hbusy]
      obtain ⟨h0, h2, h3⟩ := getLsbD_statusWord_low (Config.freeTreeValid s.draws) (Config.freeErr s.draws)
      exact ⟨h0, h2, h3, fun k => getLsbD_statusWord_high _ _ _⟩
  · exact ⟨_, (step_of_read hs rfl).trans (congrArg _ (readRegister_of_busy busy _))⟩
  · rw [step_of_read hs haligned, readRegister_of_busy busy, registerRead_elsewhere hoffset]
  · exact ⟨_, by rw [step_of_readOut hs, readOut, drawsAfterRead, if_pos busy]⟩

/-- Settles O17: only offset 0 issues a command. -/
theorem writesElsewhereAreIgnored : Obligations.WritesElsewhereAreIgnored := by
  intro s rest offset w hs hne haligned
  exact (step_of_host hs).trans (busWrite_elsewhere w hne haligned _)

/-- Settles O18: the completion reads the captured IN and not the host's buffer, which a present alone writes. -/
theorem capturedInputIsIsolatedFromTheHost : Obligations.CapturedInputIsIsolatedFromTheHost := by
  refine ⟨fun s later hbusy hturn => ?_, fun s rest later hs => step_of_host hs, fun s rest hs => step_of_host hs⟩
  rw [step_of_blockTurn hbusy hturn, step_of_blockTurn (s := { s with inPort := later }) hbusy hturn,
    afterBlockTurn_of_inPort s later]
  exact complete_of_inPort s.afterBlockTurn later

/-- Settles O19: the reset writes literals, and CODE becomes a table filled with `none`. -/
theorem resetCancelsAndClears : Obligations.ResetCancelsAndClears := by
  intro s rest hs
  exact ⟨_, step_of_reset hs, rfl, rfl, rfl, rfl, rfl, rfl, rfl, fun a => atSym_replicate none a, rfl, rfl, rfl, rfl,
    rfl⟩

/-- Settles O23, by induction on the script: a turn that does not end the command takes one turn off it, and with none
left the command completes. -/
theorem issuedCommandEndsInFinitelyManyTurns : Obligations.IssuedCommandEndsInFinitelyManyTurns := by
  intro s hbusy
  induction hn : s.script.length generalizing s with
  | zero =>
    obtain ⟨r, hr⟩ | ⟨t, ht, hidle | ⟨a, hs, -⟩⟩ := step_of_busy hbusy
    · exact ⟨1, le_rfl, .inr ⟨r, run_succ_of_refused hr 0⟩⟩
    · exact ⟨1, le_rfl, .inl ⟨t, run_succ_of_next ht 0, hidle⟩⟩
    · simp [hs] at hn
  | succ n ih =>
    obtain ⟨r, hr⟩ | ⟨t, ht, hidle | ⟨a, hs, htbusy⟩⟩ := step_of_busy hbusy
    · exact ⟨1, by omega, .inr ⟨r, run_succ_of_refused hr 0⟩⟩
    · exact ⟨1, by omega, .inl ⟨t, run_succ_of_next ht 0, hidle⟩⟩
    · obtain ⟨k, hk, hrun⟩ := ih t htbusy (by simpa [hs] using hn)
      exact ⟨k + 1, by omega, by rwa [run_succ_of_next ht]⟩

/-- Settles O24: the present, then `run_write_poll`. -/
theorem commandLineRunsItsCommand : Obligations.CommandLineRunsItsCommand := by
  intro s c rest _ hidle hs hlen
  rw [run_succ_of_next (step_of_host hs)]
  exact run_write_poll (s := { s with inPort := c.expand.2, script := _ }) rfl hidle hlen

end Sys2Proof.Machine

/-! The statements about the codes of a built tree and its decoding (40_huffman.md R109 to R111, R113), and the state
invariant (10_state.md R26, R27, R32), whose bound on OUT rests on the bound on the codes. -/

namespace Sys2Proof.Machine

namespace BuiltTree

variable {s : State}

/-! ## The codes of a built tree -/

theorem nleaf_eq_one_of_leaf (h : BuiltTree s) {a : Symbol} (ha : IsLeafOf s.node s.root a) : s.nleaf.toNat = 1 := by
  have := h.lt_of_isLeafOf h.root_lt ha
  have := h.rootIndex
  have := h.leafCount
  omega

/-- A path passes through internal nodes in descending order, so there are no more bits than such nodes. -/
theorem follow_length_le (h : BuiltTree s) {k j : NodeIdx} {p : Bits} (hk : k.val < 2 * s.nleaf.toNat - 1)
    (hf : follow s.node k p = some j) : p.length ≤ k.val + 1 - s.nleaf.toNat := by
  induction p generalizing k with
  | nil => exact Nat.zero_le _
  | cons b p ih =>
    cases hnode : s.node[k] with
    | leaf a weight seq => simp [follow_cons_of_leaf hnode] at hf
    | internal weight left right seq =>
      obtain ⟨hle, hl, hr, -⟩ := h.of_internal hk hnode
      have hchild : (if b then right else left).val < k.val := by cases b <;> assumption
      rw [follow_cons_of_internal hnode] at hf
      have := ih (Nat.lt_trans hchild hk) hf
      rw [List.length_cons]
      omega

/-- The bounds of 40_huffman.md R113. -/
theorem code_length (h : BuiltTree s) {a : Symbol} {bits : Bits} (hcode : atSym s.code a = some bits) :
    1 ≤ bits.length ∧ bits.length ≤ max 1 (s.nleaf.toNat - 1) := by
  have hroot := h.rootIndex
  obtain htwo | hone : 2 ≤ s.nleaf.toNat ∨ s.nleaf.toNat = 1 := by have := h.leafCount; omega
  · obtain ⟨k, hk, -, hpath⟩ := h.codePaths htwo a bits hcode
    have hle := h.follow_length_le h.root_lt hpath
    refine ⟨List.length_pos_iff.2 fun hnil => ?_, by omega⟩
    obtain rfl : s.root = k := by simpa [hnil, follow] using hpath
    omega
  · simp [h.singleCode hone a bits hcode]

theorem code_length_le_255 (h : BuiltTree s) {a : Symbol} {bits : Bits} (hcode : atSym s.code a = some bits) :
    bits.length ≤ 255 := by
  have := (h.code_length hcode).2
  have := h.leafCount
  omega

/-- With a single leaf, its symbol is the only one with a code, which is "0". -/
theorem code_eq_some_iff_of_leaf (h : BuiltTree s) {a b : Symbol} (ha : IsLeafOf s.node s.root a) {p : Bits} :
    atSym s.code b = some p ↔ b = a ∧ p = [false] := by
  have hone := h.nleaf_eq_one_of_leaf ha
  have hroot := h.rootIndex
  have valid : (atSym s.code b).isSome = true ↔ b = a := by
    rw [h.validCodes b]
    refine ⟨fun ⟨k, hk, hb⟩ => ?_, fun hb => ⟨s.root, by omega, hb ▸ ha⟩⟩
    obtain rfl : k = s.root := Fin.ext (by omega)
    obtain ⟨_, _, ha⟩ := ha
    obtain ⟨_, _, hb⟩ := hb
    cases ha.symm.trans hb
    rfl
  constructor
  · intro hcode
    exact ⟨valid.1 (by simp [hcode]), h.singleCode hone b p hcode⟩
  · rintro ⟨hb, rfl⟩
    obtain ⟨q, hq⟩ := Option.isSome_iff_exists.1 (valid.2 hb)
    rw [hq, h.singleCode hone b q hq]

/-- No code is a prefix of another symbol's: it leads to a leaf, where no path goes on. -/
theorem not_prefix (h : BuiltTree s) {a b : Symbol} {x y : Bits} (hab : a ≠ b) (hx : atSym s.code a = some x)
    (hy : atSym s.code b = some y) : ¬ x <+: y := by
  rintro ⟨z, rfl⟩
  cases hroot : s.node[s.root].isLeaf with
  | true =>
    obtain ⟨c, hc⟩ := isLeaf_eq_true_iff.1 hroot
    exact hab (((h.code_eq_some_iff_of_leaf hc).1 hx).1.trans ((h.code_eq_some_iff_of_leaf hc).1 hy).1.symm)
  | false =>
    obtain ⟨j, hj, wa, qa, ha⟩ := (h.code_eq_some_iff hroot).1 hx
    obtain ⟨k, hk, wb, qb, hb⟩ := (h.code_eq_some_iff hroot).1 hy
    rw [follow_append, hj, Option.bind_some] at hk
    cases z with
    | nil =>
      obtain rfl := Option.some.inj hk
      cases ha.symm.trans hb
      exact hab rfl
    | cons c z => simp [follow_cons_of_leaf ha] at hk

/-! ## Decoding inverts the codes -/

theorem codesOf_of_leaf (h : BuiltTree s) {a : Symbol} (ha : IsLeafOf s.node s.root a) (n : Nat) :
    codesOf s (List.replicate n a) = List.replicate n false := by
  have hcode : atSym s.code a = some [false] := (h.code_eq_some_iff_of_leaf ha).2 ⟨rfl, rfl⟩
  induction n with
  | zero => rfl
  | succ n ih => simpa [codesOf, List.replicate_succ, hcode] using ih

theorem allCoded_iff_of_leaf (h : BuiltTree s) {a : Symbol} (ha : IsLeafOf s.node s.root a) {text : List Symbol} :
    AllCoded s text ↔ text = List.replicate text.length a := by
  rw [List.eq_replicate_length]
  refine forall₂_congr fun b _ => ?_
  simp [Option.isSome_iff_exists, h.code_eq_some_iff_of_leaf ha]

/-- Bits that the walk reads are the codes of what it delivers. -/
theorem codesOf_of_decodeFrom (h : BuiltTree s) (hroot : s.node[s.root].isLeaf = false) {bits : Bits}
    {text : List Symbol} (hsome : decodeFrom s.node s.root s.root bits = some text) :
    AllCoded s text ∧ bits = codesOf s text := by
  induction hlen : bits.length using Nat.strong_induction_on generalizing bits text with
  | _ len ih =>
    obtain ⟨j, hj, hinside⟩ | ⟨p, rest, j, a, rfl, hne, hj, ha⟩ := follow_inside_or_leaf bits hroot
    · have hstop : j = s.root := by
        by_contra hne
        simp [decodeFrom_inside hj hinside hne] at hsome
      have hnil : bits = [] := by
        by_contra hne
        exact (h.path_lt hne hj).ne hstop
      obtain rfl : text = [] := by simpa [hnil, decodeFrom] using hsome.symm
      exact ⟨nofun, hnil⟩
    · rw [decodeFrom_path _ _ _ _ _ _ _ hne hj ha] at hsome
      obtain ⟨text, hrest, rfl⟩ := Option.map_eq_some_iff.1 hsome
      have shorter : rest.length < len := by
        have := List.length_pos_of_ne_nil hne
        rw [← hlen, List.length_append]
        omega
      obtain ⟨hcoded, rfl⟩ := ih _ shorter hrest rfl
      have hp : atSym s.code a = some p := (h.code_eq_some_iff hroot).2 ⟨j, hj, ha⟩
      exact ⟨List.forall_mem_cons.2 ⟨by simp [hp], hcoded⟩, by simp [codesOf, hp]⟩

/-- Decoding delivers a text exactly from the text's codes (40_huffman.md R109, R110). -/
theorem decodeBits_eq_some_iff (h : BuiltTree s) {bits : Bits} {text : List Symbol} :
    decodeBits s.node s.root bits = some text ↔ AllCoded s text ∧ bits = codesOf s text := by
  cases hnode : s.node[s.root] with
  | leaf a weight seq =>
    have ha : IsLeafOf s.node s.root a := ⟨weight, seq, hnode⟩
    rw [h.allCoded_iff_of_leaf ha]
    simp only [decodeBits, hnode, decodeSingle_eq]
    constructor
    · intro hsome
      obtain ⟨hall, rfl⟩ : (bits.all (! ·)) = true ∧ List.replicate bits.length a = text := by simpa using hsome
      rw [List.length_replicate, h.codesOf_of_leaf ha]
      exact ⟨rfl, List.eq_replicate_length.2 (by simpa using hall)⟩
    · rintro ⟨htext, hbits⟩
      rw [htext, h.codesOf_of_leaf ha] at hbits
      rw [htext]
      simp [hbits]
  | internal weight left right seq =>
    have hroot := isLeaf_eq_false_iff.2 ⟨weight, left, right, seq, hnode⟩
    have walk : decodeBits s.node s.root bits = decodeFrom s.node s.root s.root bits := by simp only [decodeBits, hnode]
    rw [walk]
    refine ⟨h.codesOf_of_decodeFrom hroot, fun ⟨hcoded, hbits⟩ => ?_⟩
    have := h.decodeFrom_codesOf hroot hcoded []
    simpa [hbits, decodeFrom] using this

/-- Each symbol takes a bit or more. -/
theorem length_le_codesOf (h : BuiltTree s) {text : List Symbol} (hcoded : AllCoded s text) :
    text.length ≤ (codesOf s text).length := by
  induction text with
  | nil => exact Nat.zero_le _
  | cons a text ih =>
    obtain ⟨p, hp⟩ := Option.isSome_iff_exists.1 (hcoded a List.mem_cons_self)
    have hpos := (h.code_length hp).1
    have := ih fun b hb => hcoded b (List.mem_cons_of_mem a hb)
    simp only [codesOf] at this
    simp only [codesOf, List.flatMap_cons, hp, Option.getD_some, List.length_append, List.length_cons]
    omega

/-- The walk stays within the first `2 * NLEAF - 1` entries of NODE. -/
theorem decodeFrom_congr (h : BuiltTree s) {node : Vector Node 511}
    (hsame : ∀ k : NodeIdx, k.val < 2 * s.nleaf.toNat - 1 → node[k] = s.node[k]) {cur : NodeIdx}
    (hcur : cur.val < 2 * s.nleaf.toNat - 1) (bits : Bits) :
    decodeFrom node s.root cur bits = decodeFrom s.node s.root cur bits := by
  induction bits generalizing cur with
  | nil => rfl
  | cons b bits ih =>
    cases hnode : s.node[cur] with
    | leaf a weight seq => simp [decodeFrom, childOf, hsame cur hcur, hnode]
    | internal weight left right seq =>
      obtain ⟨-, hl, hr, -⟩ := h.of_internal hcur hnode
      have hchild : (if b then right else left).val < cur.val := by cases b <;> assumption
      have hchild' := Nat.lt_trans hchild hcur
      simp only [decodeFrom, childOf, hsame cur hcur, hnode, hsame _ hchild', ih h.root_lt, ih hchild']

theorem decodeBits_congr (h : BuiltTree s) {node : Vector Node 511}
    (hsame : ∀ k : NodeIdx, k.val < 2 * s.nleaf.toNat - 1 → node[k] = s.node[k]) (bits : Bits) :
    decodeBits node s.root bits = decodeBits s.node s.root bits := by
  simp only [decodeBits, hsame s.root h.root_lt, h.decodeFrom_congr hsame h.root_lt]

/-- The tree is a matter of NLEAF, ROOT, NODE and CODE alone. -/
theorem congr {t : State} (h : BuiltTree s) (hnleaf : t.nleaf = s.nleaf) (hroot : t.root = s.root)
    (hnode : t.node = s.node) (hcode : t.code = s.code) : BuiltTree t := by
  constructor <;> simp only [hnleaf, hroot, hnode, hcode]
  exacts [h.leafCount, h.rootIndex, h.leaves, h.ascending, h.internals, h.oneParent, h.validCodes, h.codePaths,
    h.singleCode]

end BuiltTree

/-! ## The invariant -/

theorem TreeInv.congr {s t : State} (h : TreeInv s) (hsame : SameHuffman s t) : TreeInv t := by
  obtain ⟨hvalid, hnleaf, hroot, hnode, hcode⟩ := hsame
  exact ⟨fun ht => (h.1 (hvalid ▸ ht)).congr hnleaf hroot hnode hcode, fun ht a => hcode ▸ h.2 (hvalid ▸ ht) a⟩

theorem length_encodeText_le {code : Vector (Option Bits) 256} {n : Nat}
    (hcode : ∀ a bits, atSym code a = some bits → bits.length ≤ n) {text : List Symbol} {bits : Bits}
    (h : encodeText code text = some bits) : bits.length ≤ n * text.length := by
  induction text generalizing bits with
  | nil => simp_all [encodeText]
  | cons a text ih =>
    simp only [encodeText] at h
    split at h
    · rename_i p rest hp hrest
      cases h
      have := hcode a p hp
      have := ih hrest
      rw [List.length_append, List.length_cons, Nat.mul_succ]
      omega
    · cases h

namespace Inv

variable {s t : State}

/-- The invariant is a matter of the fields named here. -/
theorem congr (h : Inv s) (hmax : t.maxIn = s.maxIn) (hcaptured : t.captured = s.captured) (hbusy : t.busy = s.busy)
    (hout : t.out = s.out) (hsame : SameHuffman s t) : Inv t where
  maxInRange := hmax ▸ h.maxInRange
  inputBound := hmax ▸ hcaptured ▸ h.inputBound
  idleEmpty := hcaptured ▸ hbusy ▸ h.idleEmpty
  outputBound := hmax ▸ hout ▸ h.outputBound
  tree := h.tree.congr hsame

theorem withScript (h : Inv s) (script : List Turn) : Inv { s with script := script } :=
  h.congr rfl rfl rfl rfl ⟨rfl, rfl, rfl, rfl, rfl⟩

theorem completed (h : Inv s) (e : ErrCode) (r : Word) {o : List Byte} (ho : o.length ≤ 255 * s.maxIn) :
    Inv (s.completed e r o) where
  maxInRange := h.maxInRange
  inputBound := Nat.zero_le _
  idleEmpty _ := rfl
  outputBound := ho
  tree := h.tree.congr ⟨rfl, rfl, rfl, rfl, rfl⟩

theorem commitBuild (h : Inv s) {text : List Symbol} (hne : text ≠ []) : Inv (commitBuild (buildTree text) s) where
  maxInRange := h.maxInRange
  inputBound := Nat.zero_le _
  idleEmpty _ := rfl
  outputBound := Nat.zero_le _
  tree := ⟨fun _ => builtTree_commitBuild hne s, nofun⟩

theorem issue (h : Inv s) (w : Word) (hlen : s.inPort.length ≤ s.maxIn) : Inv (issue w s) where
  maxInRange := h.maxInRange
  inputBound := hlen
  idleEmpty := nofun
  outputBound := h.outputBound
  tree := h.tree.congr ⟨rfl, rfl, rfl, rfl, rfl⟩

theorem applyReset (h : Inv s) : Inv (applyReset s) where
  maxInRange := h.maxInRange
  inputBound := Nat.zero_le _
  idleEmpty _ := rfl
  outputBound := Nat.zero_le _
  tree := ⟨nofun, fun _ a => atSym_replicate none a⟩

/-- Codes of at most 255 bits, or none, give at most 255 bits for each symbol of IN. -/
theorem length_encoded_le (h : Inv s) {bits : Bits} (hbits : encodeText s.code s.captured = some bits) :
    bits.length ≤ 255 * s.maxIn := by
  have codes (a : Symbol) (p : Bits) (hp : atSym s.code a = some p) : p.length ≤ 255 := by
    cases hvalid : s.treeValid with
    | true => exact (h.tree.1 hvalid).code_length_le_255 hp
    | false => simp [h.tree.2 hvalid a] at hp
  exact (length_encodeText_le codes hbits).trans (Nat.mul_le_mul_left _ h.inputBound)

/-- Decoding delivers a symbol for each bit of IN at most. -/
theorem length_decoded_le (h : Inv s) (hvalid : s.treeValid = true) {text : List Symbol}
    (htext : decodeBits s.node s.root (s.captured.map bitOf) = some text) : text.length ≤ 255 * s.maxIn := by
  have built := h.tree.1 hvalid
  obtain ⟨hcoded, hbits⟩ := built.decodeBits_eq_some_iff.1 htext
  have := built.length_le_codesOf hcoded
  rw [← hbits, List.length_map] at this
  have := h.inputBound
  omega

theorem exec (h : Inv s) (i : Instr) (ht : exec i s = .next t) : Inv t := by
  have input := h.inputBound
  have empty : ([] : List Byte).length ≤ 255 * s.maxIn := Nat.zero_le _
  cases i with
  | hufBuild =>
    rw [exec_hufBuild] at ht
    split at ht
    · cases ht
      exact h.completed _ _ empty
    · cases ht
      exact h.commitBuild ‹_›
  | hufEncode =>
    rw [exec_hufEncode] at ht
    split at ht
    · cases ht
      exact h.completed _ _ empty
    · cases ht
      exact h.completed _ _ (by simpa using h.length_encoded_le ‹_›)
  | hufDecode =>
    by_cases hnil : s.captured = []
    · cases (exec_hufDecode_of_nil hnil).symm.trans ht
      exact h.completed _ _ empty
    cases hvalid : s.treeValid with
    | false =>
      cases (exec_hufDecode_of_no_tree hnil hvalid).symm.trans ht
      exact h.completed _ _ empty
    | true =>
      cases hdecode : decodeBits s.node s.root (s.captured.map bitOf) with
      | none =>
        cases (exec_hufDecode_of_none hvalid hdecode).symm.trans ht
        exact h.completed _ _ empty
      | some text =>
        cases (exec_hufDecode_of_some hvalid hdecode).symm.trans ht
        exact h.completed _ _ (h.length_decoded_le hvalid hdecode)
  | hamGenerate d =>
    cases (exec_hamGenerate d s).symm.trans ht
    exact h.completed _ _ empty
  | hamCorrect w =>
    cases (exec_hamCorrect w s).symm.trans ht
    exact h.completed _ _ empty
  | hamEncodeStream =>
    cases (exec_hamEncodeStream s).symm.trans ht
    refine h.completed _ _ ?_
    rw [List.length_map, dataBlocks_length, List.length_map]
    omega
  | hamDecodeStream l =>
    obtain hlt | hle := Nat.lt_or_ge (4 * s.captured.length) l.toNat
    · cases (exec_hamDecodeStream_of_lt hlt).symm.trans ht
      exact h.completed _ _ empty
    · cases (exec_hamDecodeStream_of_le hle).symm.trans ht
      refine h.completed _ _ ?_
      rw [List.length_map, List.length_take]
      omega

theorem complete (h : Inv s) (ht : complete s = .next t) : Inv t := by
  obtain ⟨r, -, hc⟩ | ⟨i, -, hc⟩ := complete_eq s
  · cases hc.symm.trans ht
    exact h.completed _ _ (Nat.zero_le _)
  · exact h.exec i (hc.symm.trans ht)

end Inv

theorem exists_afterBlockTurn_eq (s : State) : ∃ script, s.afterBlockTurn = { s with script := script } := by
  simp only [State.afterBlockTurn]
  split
  · exact ⟨_, rfl⟩
  · exact ⟨s.script, rfl⟩

/-! ## The obligations -/

/-- Settles O26: every step is a completion, a reset, an issue within MAX_IN, or an action of the host that leaves the
fields of the invariant as they are. -/
theorem everyStepKeepsTheInvariant : Obligations.EveryStepKeepsTheInvariant := by
  intro s t inv hstep
  obtain ⟨-, -, hc⟩ | ⟨-, rfl | ⟨rest, rfl⟩⟩ | ⟨rest, hhost⟩ := step_cases hstep
  · obtain ⟨script, hscript⟩ := exists_afterBlockTurn_eq s
    rw [hscript] at hc
    exact (inv.withScript script).complete hc
  · exact inv
  · exact inv.withScript rest
  · have inv' := inv.withScript rest
    obtain ⟨l, rfl⟩ | ⟨w, -, hlen, rfl⟩ | rfl | ⟨offset, rfl⟩ | rfl | rfl := hhost
    · exact inv'.congr rfl rfl rfl rfl ⟨rfl, rfl, rfl, rfl, rfl⟩
    · exact inv'.issue w hlen
    · exact inv'
    · exact inv'.congr rfl rfl rfl rfl ⟨rfl, rfl, rfl, rfl, rfl⟩
    · exact inv'.congr rfl rfl rfl rfl ⟨rfl, rfl, rfl, rfl, rfl⟩
    · exact inv'.applyReset

/-- Settles O27: no command runs, OUT is empty, no symbol has a code, and MAX_IN is in its range by its type. -/
theorem resetMeetsTheInvariant : Obligations.ResetMeetsTheInvariant where
  maxInRange := ⟨Config.one_le_maxIn, Nat.le_sub_one_of_lt Config.maxIn_lt⟩
  inputBound := Nat.zero_le _
  idleEmpty _ := rfl
  outputBound := Nat.zero_le _
  tree := ⟨nofun, fun _ a => atSym_replicate none a⟩

/-- Settles O36: the bounds on the codes of a built tree, whose NLEAF is the number of distinct symbols. -/
theorem codeLengthsAreBounded : Obligations.CodeLengthsAreBounded := by
  intro s hne
  have built := builtTree_commitBuild hne s
  refine ⟨_, exec_hufBuild_of_ne hne, fun a bits hcode => ?_⟩
  obtain ⟨hpos, hle⟩ := built.code_length hcode
  rw [commitBuild_buildTree_nleaf, (symbolsOf_perm_dedup s.captured).length_eq] at hle
  exact ⟨hpos, hle, built.code_length_le_255 hcode⟩

/-- Settles O37: a build commits a built tree, whose codes lead to leaves. -/
theorem builtCodesArePrefixFree : Obligations.BuiltCodesArePrefixFree := by
  intro s hne
  exact ⟨_, exec_hufBuild_of_ne hne, fun a b x y => (builtTree_commitBuild hne s).not_prefix⟩

/-- Settles O39: an empty IN is decoded before the tree is looked at. -/
theorem decodeOfNothingOrWithoutATree : Obligations.DecodeOfNothingOrWithoutATree :=
  ⟨fun _ => exec_hufDecode_of_nil, fun _ => exec_hufDecode_of_no_tree⟩

/-- Settles O40: the two outcomes of decoding with a tree of one leaf. -/
theorem decodeWithASingleLeaf : Obligations.DecodeWithASingleLeaf := by
  intro s a hvalid hleaf _
  rw [exec_hufDecode_of_leaf hvalid hleaf]
  refine ⟨fun zeros => if_pos zeros, fun ⟨e, he, hone⟩ => if_neg fun zeros => ?_⟩
  exact absurd (zeros e he) (by simp [hone])

/-- Settles O41: decoding delivers a text from the text's codes. -/
theorem decodeInvertsTheCodes : Obligations.DecodeInvertsTheCodes := by
  intro s text hvalid inv hcoded hbits
  exact exec_hufDecode_of_some hvalid ((inv.1 hvalid).decodeBits_eq_some_iff.2 ⟨hcoded, hbits⟩)

/-- Settles O42: decoding delivers a text from nothing but the text's codes. -/
theorem decodeOfAnythingElseIsMalformed : Obligations.DecodeOfAnythingElseIsMalformed := by
  intro s hvalid inv hother
  refine exec_hufDecode_of_none hvalid (Option.eq_none_iff_forall_ne_some.2 fun text hsome => ?_)
  obtain ⟨hcoded, hbits⟩ := (inv.1 hvalid).decodeBits_eq_some_iff.1 hsome
  exact hother text hcoded hbits

end Sys2Proof.Machine

/-! The statements about the errors that the Hamming code corrects and those it does not (41_hamming.md R158 to R161).
The code is linear, so what a pattern of flips does to a code word it does to the zero word. -/

namespace Sys2Proof.Machine

/-! ## One flip -/

theorem correctResult_eq_ofNat (d : DataBlock) (p : Pos) :
    correctResult (d, p) = BitVec.ofNat 32 (16 * p.toNat + d.toNat) := by
  apply BitVec.eq_of_toNat_eq
  rw [correctResult_toNat, BitVec.toNat_ofNat]
  omega

theorem correct_flipAt_generate (d : DataBlock) {p : Nat} (hp : 1 ≤ p) (hp' : p ≤ 7) :
    correct (flipAt (generate d) p) = (d, BitVec.ofNat 3 p) := by
  obtain ⟨p, rfl⟩ := Nat.exists_eq_add_of_le' hp
  exact correct_flip_generate d ⟨p, by omega⟩

/-- The code word of `RESULT`, taken back as CW7. -/
theorem ofNat_toNat_zeroExtend (w : CodeBlock) : BitVec.ofNat 7 (w.zeroExtend 32).toNat = w :=
  BitVec.eq_of_toNat_eq (by simp; omega)

/-- A flip in `RESULT` is a flip in the code word. -/
theorem ofNat_toNat_xor_zeroExtend (w : CodeBlock) (p : Nat) :
    BitVec.ofNat 7 ((w.zeroExtend 32).toNat ^^^ 2 ^ (7 - p)) = flipAt w p := by
  have mask : BitVec.ofNat 7 (2 ^ (7 - p)) = 1#7 <<< (7 - p) :=
    BitVec.eq_of_toNat_eq (by simp [Nat.shiftLeft_eq])
  rw [BitVec.ofNat_xor, ofNat_toNat_zeroExtend, mask, flipAt]

/-! ## Linearity -/

theorem codeBit_xor (v w : CodeBlock) (p : Nat) : codeBit (v ^^^ w) p = (codeBit v p ^^ codeBit w p) :=
  BitVec.getLsbD_xor

theorem flipAt_xor (v w : CodeBlock) (p : Nat) : flipAt (v ^^^ w) p = v ^^^ flipAt w p :=
  BitVec.xor_assoc _ _ _

theorem syndrome1_xor (v w : CodeBlock) : syndrome1 (v ^^^ w) = (syndrome1 v ^^ syndrome1 w) := by
  simp only [syndrome1, codeBit_xor, Bool.xor_assoc, Bool.xor_left_comm]

theorem syndrome2_xor (v w : CodeBlock) : syndrome2 (v ^^^ w) = (syndrome2 v ^^ syndrome2 w) := by
  simp only [syndrome2, codeBit_xor, Bool.xor_assoc, Bool.xor_left_comm]

theorem syndrome4_xor (v w : CodeBlock) : syndrome4 (v ^^^ w) = (syndrome4 v ^^ syndrome4 w) := by
  simp only [syndrome4, codeBit_xor, Bool.xor_assoc, Bool.xor_left_comm]

/-- The syndrome bits are the binary digits of the position, so positions add without carry. -/
theorem errorPosition_xor (v w : CodeBlock) : errorPosition (v ^^^ w) = errorPosition v ^^^ errorPosition w := by
  simp only [errorPosition, syndrome1_xor, syndrome2_xor, syndrome4_xor]
  generalize syndrome1 v = v1, syndrome2 v = v2, syndrome4 v = v4, syndrome1 w = w1, syndrome2 w = w2, syndrome4 w = w4
  revert v1 v2 v4 w1 w2 w4
  decide

theorem errorPosition_generate (d : DataBlock) : errorPosition (generate d) = 0#3 := by
  revert d
  decide

theorem errorPosition_flipAt (w : CodeBlock) {p : Nat} (hp : 1 ≤ p) (hp' : p ≤ 7) :
    errorPosition (flipAt w p) = errorPosition w ^^^ BitVec.ofNat 3 p := by
  have single : ∀ p : Fin 7, errorPosition (1#7 <<< (7 - (p.val + 1))) = BitVec.ofNat 3 (p.val + 1) := by decide
  obtain ⟨p, rfl⟩ := Nat.exists_eq_add_of_le' hp
  rw [flipAt, errorPosition_xor, single ⟨p, by omega⟩]

theorem extractData_xor (v w : CodeBlock) : extractData (v ^^^ w) = extractData v ^^^ extractData w := by
  have pack : ∀ a b c d a' b' c' d', packData (a ^^ a') (b ^^ b') (c ^^ c') (d ^^ d') =
      packData a b c d ^^^ packData a' b' c' d' := by decide
  simp only [extractData, codeBit_xor, pack]

theorem extractData_generate (d : DataBlock) : extractData (generate d) = d := by
  revert d
  decide

/-- What `correct` makes of a pattern of flips it makes of it on top of any code word. -/
theorem correct_generate_xor (d : DataBlock) (e : CodeBlock) :
    (correct (generate d ^^^ e)).1 = d ^^^ (correct e).1 := by
  have position : errorPosition (generate d ^^^ e) = errorPosition e := by
    rw [errorPosition_xor, errorPosition_generate, BitVec.zero_xor]
  rw [correct_fst, position, flipAt_xor, extractData_xor, extractData_generate, ← correct_fst]

/-- No two code words are so close that correcting a pattern of two flips or more brings the first one back. -/
theorem correct_ne_zero_of_two_flips (e : CodeBlock) (h : 2 ≤ ((List.range 7).filter fun k => e.getLsbD k).length) :
    (correct e).1 ≠ 0 := by
  revert e
  decide

/-! ## Streams -/

/-- A code word with at most one flip corrects to its data, whatever bit 7 of the element is. -/
theorem correct_of_atMostOneFlip {d : DataBlock} {r : Byte} (h : AtMostOneFlip (codeWordElement (generate d)) r) :
    (correct (codeWordOf r)).1 = d := by
  rw [AtMostOneFlip, codeWordOf_codeWordElement] at h
  obtain hr | ⟨p, hp, hp', hr⟩ := h
  · rw [hr, correct_generate]
  · rw [hr, correct_flipAt_generate d hp hp']

theorem correctedBits_of_atMostOneFlip {blocks : List DataBlock} {received : List Byte}
    (h : List.Forall₂ AtMostOneFlip (blocks.map fun d => codeWordElement (generate d)) received) :
    correctedBits (received.map codeWordOf) = blocks.flatMap dataBits := by
  induction blocks generalizing received with
  | nil =>
    cases h
    rfl
  | cons d blocks ih =>
    cases h with
    | cons hr hrest => rw [List.map_cons, correctedBits_cons, correct_of_atMostOneFlip hr, ih hrest, List.flatMap_cons]

theorem map_bitOf_bitElements (bits : Bits) : (bitElements bits).map bitOf = bits := by
  rw [show bitElements bits = bits.map bitElement from rfl, List.map_map]
  exact (List.map_congr_left fun b _ => bitOf_bitElement b).trans (List.map_id _)

/-- Decoding `LEN24` bits of what the channel makes of a stream's code words gives the stream. -/
theorem exec_hamDecodeStream_of_channel (u : State) {bits : Bits} (hlen : bits.length < 2 ^ 24) {received : List Byte}
    (hchannel : List.Forall₂ AtMostOneFlip ((dataBlocks bits).map fun d => codeWordElement (generate d)) received) :
    exec (.hamDecodeStream (BitVec.ofNat 24 bits.length)) { u with captured := received } =
      .next (u.completed .ok (BitVec.ofNat 32 bits.length) (bitElements bits)) := by
  have blocks := hchannel.length_eq
  rw [List.length_map, dataBlocks_length] at blocks
  have len : (BitVec.ofNat 24 bits.length).toNat = bits.length := by
    rw [BitVec.toNat_ofNat]
    exact Nat.mod_eq_of_lt hlen
  have result : (BitVec.ofNat 24 bits.length).zeroExtend 32 = BitVec.ofNat 32 bits.length := by
    apply BitVec.eq_of_toNat_eq
    rw [BitVec.zeroExtend, BitVec.toNat_setWidth, len, BitVec.toNat_ofNat]
  have enough : (BitVec.ofNat 24 bits.length).toNat ≤ 4 * { u with captured := received }.captured.length := by
    rw [len]
    simp only
    omega
  rw [exec_hamDecodeStream_of_le enough, len, result, correctedBits_of_atMostOneFlip hchannel,
    flatMap_dataBits_dataBlocks]
  rfl

/-! ## The obligations -/

/-- Settles O47: the word of RESULT is the code word, and it corrects to its data at position 0. -/
theorem cleanWordCorrectsToItsData : Obligations.CleanWordCorrectsToItsData := by
  intro s d
  refine ⟨_, exec_hamGenerate d s, fun u => ?_⟩
  change exec (.hamCorrect (BitVec.ofNat 7 ((generate d).zeroExtend 32).toNat)) u = _
  rw [ofNat_toNat_zeroExtend, exec_hamCorrect, correct_generate, correctResult_eq_ofNat]
  simp

/-- Settles O48: the flip in RESULT is a flip of the code word, which the syndrome names. -/
theorem singleErrorIsCorrected : Obligations.SingleErrorIsCorrected := by
  intro s u d p hp hp'
  refine ⟨_, exec_hamGenerate d s, ?_⟩
  have hpos : (BitVec.ofNat 3 p).toNat = p := Nat.mod_eq_of_lt (by omega)
  change exec (.hamCorrect (BitVec.ofNat 7 (((generate d).zeroExtend 32).toNat ^^^ 2 ^ (7 - p)))) u = _
  rw [ofNat_toNat_xor_zeroExtend, exec_hamCorrect, correct_flipAt_generate d hp hp', correctResult_eq_ofNat, hpos]

/-- Settles O49: by linearity it is enough to look at the patterns of flips alone. -/
theorem multipleErrorsPassSilently : Obligations.MultipleErrorsPassSilently := by
  refine ⟨fun s d e he => ⟨_, exec_hamCorrect _ s, fun hdata => ?_⟩,
    fun s d p q hp hp' hq hq' _ => ⟨_, exec_hamCorrect _ s, ?_⟩⟩
  · have same : (d ^^^ (correct e).1).toNat = d.toNat := by
      rw [← correct_generate_xor, ← hdata, correctResult_toNat]
      omega
    have zero : (correct e).1 = 0#4 := by
      rw [← BitVec.zero_xor (x := (correct e).1), ← BitVec.xor_self (x := d), BitVec.xor_assoc,
        BitVec.eq_of_toNat_eq same]
    exact correct_ne_zero_of_two_flips e he zero
  · have position : errorPosition (flipAt (flipAt (generate d) p) q) = BitVec.ofNat 3 p ^^^ BitVec.ofNat 3 q := by
      rw [errorPosition_flipAt _ hq hq', errorPosition_flipAt _ hp hp', errorPosition_generate, BitVec.zero_xor]
    calc (correctResult (correct (flipAt (flipAt (generate d) p) q))).toNat / 16
        = (errorPosition (flipAt (flipAt (generate d) p) q)).toNat := by
          rw [correctResult_toNat]
          simp only [correct]
          omega
      _ = p ^^^ q := by
          rw [position, BitVec.toNat_xor, BitVec.toNat_ofNat, BitVec.toNat_ofNat, Nat.mod_eq_of_lt (by omega),
            Nat.mod_eq_of_lt (by omega)]

/-- Settles O52: every block corrects to its data, and LEN24 cuts off the padding. -/
theorem streamRoundTripWithSingleErrors : Obligations.StreamRoundTripWithSingleErrors := by
  intro s u bits hlen hcaptured
  refine ⟨_, exec_hamEncodeStream s, fun received hchannel => exec_hamDecodeStream_of_channel u hlen ?_⟩
  rwa [State.completed, hcaptured, map_bitOf_bitElements] at hchannel

end Sys2Proof.Machine

/-! The statements about what a command cannot observe (10_state.md R31; 30_encoding.md R78; 40_huffman.md R107;
70_reset_and_hazards.md R230). -/

namespace Sys2Proof.Machine

/-- The bits of IN decide what HUF_DECODE gives. -/
theorem exec_hufDecode_of_map_bitOf (s : State) {x y : List Byte} (hxy : x.map bitOf = y.map bitOf) :
    exec .hufDecode { s with captured := x } = exec .hufDecode { s with captured := y } := by
  obtain rfl | hx := eq_or_ne x []
  · rw [List.map_eq_nil_iff.1 hxy.symm]
  have hy : y ≠ [] := by
    rintro rfl
    exact hx (List.map_eq_nil_iff.1 hxy)
  obtain hvalid | hvalid := Bool.eq_false_or_eq_true s.treeValid
  · cases hdecode : decodeBits s.node s.root (x.map bitOf) with
    | none =>
      exact (exec_hufDecode_of_none (s := { s with captured := x }) hvalid hdecode).trans
        (exec_hufDecode_of_none (s := { s with captured := y }) hvalid (hxy ▸ hdecode)).symm
    | some text =>
      exact (exec_hufDecode_of_some (s := { s with captured := x }) hvalid hdecode).trans
        (exec_hufDecode_of_some (s := { s with captured := y }) hvalid (hxy ▸ hdecode)).symm
  · exact (exec_hufDecode_of_no_tree (s := { s with captured := x }) hx hvalid).trans
      (exec_hufDecode_of_no_tree (s := { s with captured := y }) hy hvalid).symm

/-- The bits of IN decide what HAM_ENCODE_STREAM gives. -/
theorem exec_hamEncodeStream_of_map_bitOf (s : State) {x y : List Byte} (hxy : x.map bitOf = y.map bitOf) :
    exec .hamEncodeStream { s with captured := x } = exec .hamEncodeStream { s with captured := y } := by
  have hlen : x.length = y.length := by simpa using congrArg List.length hxy
  simp only [exec_hamEncodeStream, hxy, hlen]
  rfl

/-- The code words of IN decide what HAM_DECODE_STREAM gives. -/
theorem exec_hamDecodeStream_of_map_codeWordOf (s : State) (len24 : BitVec 24) {x y : List Byte}
    (hxy : x.map codeWordOf = y.map codeWordOf) :
    exec (.hamDecodeStream len24) { s with captured := x } =
      exec (.hamDecodeStream len24) { s with captured := y } := by
  have hlen : x.length = y.length := by simpa using congrArg List.length hxy
  simp only [exec, execHamDecodeStream, hxy, hlen]
  rfl

/-- Bits 6:0 of an element as a number. -/
theorem codeWordOf_eq_ofNat (e : Byte) : codeWordOf e = BitVec.ofNat 7 (e.toNat % 128) := by
  rw [codeWordOf_eq_setWidth]
  exact BitVec.eq_of_toNat_eq (by simp)

/-! ## The obligations -/

/-- Settles O54: a bit element is read by `bitOf`, a code-word element by `codeWordOf`, which is its number modulo
128. -/
theorem unusedElementBitsAreIgnored : Obligations.UnusedElementBitsAreIgnored := by
  intro s x y
  refine ⟨fun hxy => ⟨exec_hufDecode_of_map_bitOf s hxy, exec_hamEncodeStream_of_map_bitOf s hxy⟩,
    fun hxy len24 => exec_hamDecodeStream_of_map_codeWordOf s len24 ?_, fun d => rfl, fun w => rfl⟩
  have words (l : List Byte) : l.map codeWordOf = (l.map fun e => e.toNat % 128).map (BitVec.ofNat 7) := by
    simp [codeWordOf_eq_ofNat]
  rw [words x, words y, hxy]

/-- Settles O55: FREQ is not among what a command reads, and a build overwrites it. -/
theorem frequencyTableIsUnobservable : Obligations.FrequencyTableIsUnobservable := by
  intro i s other
  by_cases hi : i = .hufBuild
  · subst hi
    obtain ⟨-, hs, hu⟩ | ⟨b, hs, hu⟩ := exec_hufBuild_same_outcome (s := s) (u := { s with freq := other }) rfl
    · exact ⟨_, _, hs, hu, rfl⟩
    · exact ⟨_, _, hs, hu, rfl⟩
  · obtain ⟨e, r, o, hs, hu⟩ :=
      exec_same_outcome (s := s) (u := { s with freq := other }) hi rfl rfl rfl fun _ => rfl
    exact ⟨_, _, hs, hu, rfl⟩

/-- Settles O56: with TREE_VALID = 0 no command looks at the tree, and a build overwrites it. -/
theorem unbuiltTreeIsUnobservable : Obligations.UnbuiltTreeIsUnobservable := by
  intro i s node root nleaf hvalid
  have noTree {t : State} (ht : t.treeValid = s.treeValid) : ¬ t.treeValid = true := by simp [ht, hvalid]
  by_cases hi : i = .hufBuild
  · subst hi
    obtain ⟨-, hs, hu⟩ | ⟨b, hs, hu⟩ :=
      exec_hufBuild_same_outcome (s := s) (u := { s with node := node, root := root, nleaf := nleaf }) rfl
    · exact ⟨_, _, hs, hu, rfl, fun h => absurd h (noTree rfl)⟩
    · exact ⟨_, _, hs, hu, rfl, fun _ => rfl⟩
  · obtain ⟨e, r, o, hs, hu⟩ := exec_same_outcome (s := s) (u := { s with node := node, root := root, nleaf := nleaf })
      hi rfl rfl rfl fun h => absurd h (noTree rfl)
    exact ⟨_, _, hs, hu, rfl, fun h => absurd h (noTree rfl)⟩

/-- Settles O57: the walk of HUF_DECODE stays below `2 * NLEAF - 1`, and a build overwrites NODE. -/
theorem nodesBeyondTheTreeAreUnobservable : Obligations.NodesBeyondTheTreeAreUnobservable := by
  intro i s node hvalid inv hsame
  by_cases hi : i = .hufBuild
  · subst hi
    obtain ⟨hempty, hs, hu⟩ | ⟨b, hs, hu⟩ := exec_hufBuild_same_outcome (s := s) (u := { s with node := node }) rfl
    · exact ⟨_, _, hs, hu, rfl, hsame, fun _ hne => absurd hempty hne⟩
    · exact ⟨_, _, hs, hu, rfl, fun _ _ => rfl, fun _ _ => rfl⟩
  · obtain ⟨e, r, o, hs, hu⟩ := exec_same_outcome (s := s) (u := { s with node := node }) hi rfl rfl rfl
      fun _ => (inv.1 hvalid).decodeBits_congr hsame _
    exact ⟨_, _, hs, hu, rfl, hsame, fun h => absurd h hi⟩

end Sys2Proof.Machine

/-! The statements about what HUF_BUILD and HUF_ENCODE make of a text as a whole (40_huffman.md R101, R107, R112, R114).
A merge costs the weight of the node it creates: the merges of a build cost as much as the encoded text has bits, and
halving the collection costs no more than the length of the text. -/

namespace Sys2Proof.Machine

/-! ## The text and its counts -/

theorem countSymbols_of_perm {text text' : List Symbol} (h : text.Perm text') :
    countSymbols text = countSymbols text' := by
  simp only [countSymbols, h.count_eq]

/-- Only the counts of a text reach its tree and codes. -/
theorem buildTree_of_perm {text text' : List Symbol} (h : text.Perm text') : buildTree text = buildTree text' := by
  simp only [buildTree, countSymbols_of_perm h]

/-- A sum over the text, symbol by symbol. -/
theorem sum_count_mul (text : List Symbol) (f : Symbol → Nat) :
    ((symbolsOf text).map fun a => text.count a * f a).sum = (text.map f).sum := by
  have members : text.toFinset = (symbolsOf text).toFinset := by
    ext a
    simp
  rw [Finset.sum_list_map_count text, members, List.sum_toFinset _ (symbolsOf_nodup text)]
  simp

/-- A quantity of the seeded leaves that is one of their symbols. -/
theorem map_seed {text : List Symbol} {f : Node → Nat} {g : Symbol → Nat}
    (h : ∀ k a, (symbolsOf text)[k]? = some a → f (.leaf a (text.count a) (Fin.ofNat 511 k)) = g a) :
    (seed (countSymbols text)).map f = (symbolsOf text).map g := by
  refine List.ext_getElem? fun k => ?_
  rw [List.getElem?_map, seed_getElem?, List.getElem?_map, Option.map_map]
  exact Option.map_congr fun a ha => h k a ha

theorem sum_weight_seed (text : List Symbol) : ((seed (countSymbols text)).map Node.weight).sum = text.length := by
  have ones := sum_count_mul text fun _ => 1
  rw [map_seed (g := fun a => text.count a * 1) fun k a _ => (Nat.mul_one _).symm, ones]
  simp

/-! ## The last node of combining -/

@[simp] theorem merged_weight (a b : Node) (k : Nat) : (merged a b k).weight = a.weight + b.weight := rfl

@[simp] theorem merged_seq (a b : Node) (k : Nat) : (merged a b k).seq = Fin.ofNat 511 k := rfl

/-- A merge keeps the weight of the collection. -/
theorem sum_weight_merge {q rest : List Node} {a b : Node} (hperm : q.Perm (a :: b :: rest)) (k : Nat) :
    ((merged a b k :: rest).map Node.weight).sum = (q.map Node.weight).sum := by
  simp [(hperm.map Node.weight).sum_eq, Nat.add_assoc]

/-- In the listed nodes a child is one level deeper than its parent. -/
def ChildrenDeeper (depth : NodeIdx → Nat) (nodes : List Node) : Prop :=
  ∀ weight left right seq, Node.internal weight left right seq ∈ nodes →
    depth left = depth seq + 1 ∧ depth right = depth seq + 1

theorem getLast?_append_cons_of_length {x : Node} {xs ys : List Node} (h : ys.length = xs.length) (zs : List Node) :
    (zs ++ x :: xs).getLast? = (x :: ys ++ xs).getLast? := by
  cases xs with
  | nil => simp [List.length_eq_zero_iff.1 h]
  | cons y xs => simp [List.getLast?_append, List.getLast?_cons]

/-- The last node has the weight of the whole collection. The weights, each as often as its node is deep, add up to the
weights of the merges and those of the last node at its depth: a merge puts the two nodes it joins one level deeper. -/
theorem exists_last_combine {fuel k : Nat} {q : List Node} (hlen : q.length = fuel + 1) :
    ∃ x, (q ++ combine fuel k q).getLast? = some x ∧ x.weight = (q.map Node.weight).sum ∧
      ∀ depth, ChildrenDeeper depth (combine fuel k q) → (q.map fun y => y.weight * depth y.seq).sum =
        ((combine fuel k q).map Node.weight).sum + x.weight * depth x.seq := by
  induction fuel generalizing k q with
  | zero =>
    obtain ⟨x, rfl⟩ := List.length_eq_one_iff.1 hlen
    exact ⟨x, rfl, by simp, fun depth _ => by simp [combine]⟩
  | succ fuel ih =>
    obtain ⟨a, b, rest, hperm, -, -, hcombine⟩ := combine_succ fuel k (by omega : 2 ≤ q.length)
    have hrest : rest.length = fuel := by
      have := hperm.length_eq
      simp only [List.length_cons] at this
      omega
    obtain ⟨x, hlast, hweight, hdepth⟩ := ih (k := k + 1) (q := merged a b k :: rest) (by simp [hrest])
    rw [hcombine]
    refine ⟨x, ?_, ?_, fun depth hdeeper => ?_⟩
    · rw [← hlast]
      exact getLast?_append_cons_of_length (by rw [hrest, combine_length _ _ _ (by simp [hrest])]) q
    · rw [hweight, sum_weight_merge hperm]
    · have below := hdepth depth fun w l r s hs => hdeeper w l r s (.tail _ hs)
      obtain ⟨ha, hb⟩ := hdeeper _ _ _ _ List.mem_cons_self
      rw [(hperm.map fun y => y.weight * depth y.seq).sum_eq]
      simp only [List.map_cons, List.sum_cons, merged_weight, merged_seq, ha, hb] at below ⊢
      linarith

/-! ## The cost of combining -/

/-- Of the weights from which the least is taken, a part can give up one of at least that weight. -/
theorem exists_le_of_le_cons {a : Nat} {part weights : Multiset Nat} (hpart : part ≤ a ::ₘ weights)
    (hleast : ∀ y ∈ weights, a ≤ y) (hne : part ≠ 0) :
    ∃ part' ≤ weights, part'.card + 1 = part.card ∧ part'.sum + a ≤ part.sum := by
  by_cases ha : a ∈ part
  · refine ⟨part.erase a, Multiset.erase_le_iff_le_cons.2 hpart, Multiset.card_erase_add_one ha, ?_⟩
    exact (Nat.add_comm _ _).trans_le (Multiset.sum_erase ha).le
  · have hle := (Multiset.le_cons_of_notMem ha).1 hpart
    obtain ⟨c, hc⟩ := Multiset.exists_mem_of_ne_zero hne
    refine ⟨part.erase c, (Multiset.erase_le c part).trans hle, Multiset.card_erase_add_one hc, ?_⟩
    have := hleast c (Multiset.mem_of_le hle hc)
    have := Multiset.sum_erase hc
    omega

theorem weight_le_of_keyLt {a y : Node} (h : keyLt y a = false) : a.weight ≤ y.weight := by
  by_contra hlt
  exact absurd ((keyLt_iff y a).2 (.inl (Nat.not_le.1 hlt))) (by simp [h])

/-- A merge of the two least nodes is paid by two weights of any part that is large enough. -/
theorem exists_part_after_merge {q rest : List Node} {a b : Node} (hperm : q.Perm (a :: b :: rest))
    (ha : ∀ y ∈ b :: rest, keyLt y a = false) (hb : ∀ y ∈ rest, keyLt y b = false) {m : Nat} {part : Multiset Nat}
    (hpart : part ≤ (q.map Node.weight : List Nat)) (hcard : 2 * (m + 1) ≤ part.card) :
    ∃ part' ≤ ((rest.map Node.weight : List Nat) : Multiset Nat), 2 * m ≤ part'.card ∧
      part'.sum + (a.weight + b.weight) ≤ part.sum := by
  rw [Multiset.coe_eq_coe.2 (hperm.map Node.weight)] at hpart
  obtain ⟨part₁, hpart₁, hcard₁, hsum₁⟩ := exists_le_of_le_cons (a := a.weight)
    (weights := ((b :: rest).map Node.weight : List Nat)) hpart
    (by simpa using fun y hy => weight_le_of_keyLt (ha y hy)) (Multiset.card_pos.1 (by omega))
  obtain ⟨part₂, hpart₂, hcard₂, hsum₂⟩ := exists_le_of_le_cons (a := b.weight)
    (weights := (rest.map Node.weight : List Nat)) hpart₁
    (by simpa using fun y hy => weight_le_of_keyLt (hb y hy)) (Multiset.card_pos.1 (by omega))
  exact ⟨part₂, hpart₂, by omega, by omega⟩

/-- Combining costs at most the weight of the collection for each halving of its size. `m` merges are left until the
size is `2 ^ c`, and a part of `2 * m` weights is still to pay for them. -/
theorem cost_combine_le {fuel k : Nat} {q : List Node} (hlen : q.length = fuel + 1) {c m : Nat} {part : Multiset Nat}
    (hpart : part ≤ (q.map Node.weight : List Nat)) (hcard : 2 * m ≤ part.card) (hsize : q.length ≤ 2 ^ c + m) :
    ((combine fuel k q).map Node.weight).sum ≤ part.sum + (q.map Node.weight).sum * c := by
  induction fuel generalizing k q c m part with
  | zero => exact Nat.zero_le _
  | succ fuel ih =>
    have merge {c m : Nat} {part : Multiset Nat} (hpart : part ≤ (q.map Node.weight : List Nat))
        (hcard : 2 * (m + 1) ≤ part.card) (hsize : q.length ≤ 2 ^ c + (m + 1)) :
        ((combine (fuel + 1) k q).map Node.weight).sum ≤ part.sum + (q.map Node.weight).sum * c := by
      obtain ⟨a, b, rest, hperm, ha, hb, hcombine⟩ := combine_succ fuel k (by omega : 2 ≤ q.length)
      obtain ⟨part', hpart', hcard', hsum⟩ := exists_part_after_merge hperm ha hb hpart hcard
      have hrest : (merged a b k :: rest).length + 1 = q.length := hperm.length_eq.symm
      have others := ih (k := k + 1) (q := merged a b k :: rest) (c := c) (by omega)
        (hpart'.trans (Multiset.le_cons_self _ _)) hcard' (by omega)
      rw [sum_weight_merge hperm] at others
      rw [hcombine, List.map_cons, List.sum_cons, merged_weight]
      omega
    induction c generalizing m part with
    | zero =>
      cases m with
      | zero => omega
      | succ m => exact merge hpart hcard hsize
    | succ c halve =>
      cases m with
      | zero =>
        have hpow : 2 ^ (c + 1) = 2 * 2 ^ c := Nat.pow_succ'
        have := halve (m := q.length - 2 ^ c) le_rfl (by rw [Multiset.coe_card, List.length_map]; omega) (by omega)
        rw [Multiset.sum_coe] at this
        rw [Nat.mul_succ]
        omega
      | succ m => exact merge hpart hcard hsize

/-! ## The weights and the depths of a built tree -/

/-- The depth of a node is the length of the paths from the root to it. -/
def IsDepth (s : State) (depth : NodeIdx → Nat) : Prop :=
  ∀ p j, follow s.node s.root p = some j → depth j = p.length

namespace BuiltTree

variable {s : State}

/-- A child weighs no more than its parent, so no node weighs more than the root. -/
theorem weight_le_root (h : BuiltTree s) {j : NodeIdx} (hj : j.val < 2 * s.nleaf.toNat - 1) :
    s.node[j].weight ≤ s.node[s.root].weight := by
  have hroot := h.rootIndex
  induction hd : s.root.val - j.val using Nat.strong_induction_on generalizing j with
  | _ d ih =>
    obtain heq | hlt := Nat.eq_or_lt_of_le (show j.val ≤ s.root.val by omega)
    · rw [show j = s.root from Fin.ext heq]
    · obtain ⟨k, hk, ⟨weight, left, right, seq, hnode, hchild⟩, -⟩ := h.oneParent j (by omega)
      obtain ⟨hle, hl, hr, -⟩ := h.of_internal hk hnode
      obtain ⟨l, r, -, -, -, hinternal⟩ := h.internals k hle hk
      cases hinternal.symm.trans hnode
      have hjk : j.val < k.val := by obtain rfl | rfl := hchild <;> assumption
      have hup := ih (s.root.val - k.val) (by omega) hk rfl
      have hweight : s.node[k].weight = s.node[left].weight + s.node[right].weight := by rw [hinternal]; rfl
      obtain rfl | rfl := hchild <;> omega

/-- Every node has one depth, the length of its path. -/
theorem exists_depth (h : BuiltTree s) : ∃ depth, IsDepth s depth := by
  have unique (j : NodeIdx) : ∃ d, ∀ p, follow s.node s.root p = some j → d = p.length := by
    by_cases hpath : ∃ p, follow s.node s.root p = some j
    · obtain ⟨p, hp⟩ := hpath
      exact ⟨p.length, fun q hq => congrArg _ (h.path_unique hp hq)⟩
    · exact ⟨0, fun p hp => absurd ⟨p, hp⟩ hpath⟩
  choose depth hdepth using unique
  exact ⟨depth, fun p j => hdepth j p⟩

end BuiltTree

theorem buildTree_freq (text : List Symbol) : (buildTree text).freq = countSymbols text := by
  simp only [buildTree]
  split <;> rfl

/-- The internal nodes of the tree of a text, in order of creation. -/
def mergesOf (text : List Symbol) : List Node :=
  combine ((symbolsOf text).length - 1) (symbolsOf text).length (seed (countSymbols text))

theorem buildTree_nodes_eq (text : List Symbol) :
    (buildTree text).nodes = seed (countSymbols text) ++ mergesOf text := by
  rw [buildTree_nodes, seed_length, mergesOf]

section BuildOfText

variable {text : List Symbol} (hne : text ≠ []) (s : State)

include hne

theorem seed_length_eq_succ : (seed (countSymbols text)).length = (symbolsOf text).length - 1 + 1 := by
  rw [seed_length, Nat.sub_add_cancel (symbolsOf_length_pos hne)]

theorem root_of_build : (seed (countSymbols text) ++ mergesOf text).getLast? =
    some (commitBuild (buildTree text) s).node[(commitBuild (buildTree text) s).root] := by
  have hpos := symbolsOf_length_pos hne
  have hlength := buildTree_nodes_length hne
  have hroot := buildTree_root_val text
  have hlast : (buildTree text).nodes.length - 1 = (commitBuild (buildTree text) s).root.val := by
    rw [commitBuild_root]
    omega
  rw [← buildTree_nodes_eq, List.getLast?_eq_getElem?, hlast]
  exact (stores_commitBuild _ s).getElem? (by omega)

/-- The root weighs as much as the text has symbols. -/
theorem rootWeight_of_build :
    (commitBuild (buildTree text) s).node[(commitBuild (buildTree text) s).root].weight = text.length := by
  obtain ⟨x, hlast, hweight, -⟩ := exists_last_combine (k := (symbolsOf text).length) (seed_length_eq_succ hne)
  rw [Option.some.inj ((root_of_build hne s).symm.trans hlast), hweight, sum_weight_seed]

/-- A path to a merge leads one bit further to each of its children. -/
theorem childrenDeeper_mergesOf {depth : NodeIdx → Nat}
    (hdepth : IsDepth (commitBuild (buildTree text) s) depth) :
    ChildrenDeeper depth (mergesOf text) := by
  intro weight left right seq hmem
  have built := builtTree_commitBuild hne s
  have hlength := buildTree_nodes_length hne
  have hle := symbolsOf_length_le text
  have hroot := buildTree_root_val text
  have hnodes : Node.internal weight left right seq ∈ (buildTree text).nodes := by
    rw [buildTree_nodes_eq]
    exact List.mem_append_right _ hmem
  obtain ⟨i, hi, hnode⟩ := List.mem_iff_getElem.1 hnodes
  obtain ⟨j, rfl⟩ : ∃ j : NodeIdx, j.val = i := ⟨⟨i, by omega⟩, rfl⟩
  have hstored := stores_commitBuild (buildTree text) s j _ (List.getElem?_eq_some_iff.2 ⟨hi, hnode⟩)
  have hj : j.val < 2 * (commitBuild (buildTree text) s).nleaf.toNat - 1 := by
    rw [commitBuild_buildTree_nleaf]
    omega
  obtain ⟨hleaf, -⟩ := built.of_internal hj hstored
  obtain ⟨l, r, -, -, -, hinternal⟩ := built.internals j hleaf hj
  obtain ⟨-, rfl, rfl, rfl⟩ := Node.internal.inj (hinternal.symm.trans hstored)
  obtain ⟨p, hp⟩ := (isTree_commitBuild hne s).exists_path hroot j (by omega)
  have child (b : Bool) : depth (if b then r else l) = depth j + 1 := by
    have hfollow := follow_append (node := (commitBuild (buildTree text) s).node) (buildTree text).root p [b]
    rw [hp, Option.bind_some, follow_cons_of_internal hstored] at hfollow
    rw [hdepth _ _ hfollow, hdepth _ _ hp, List.length_append, List.length_singleton]
  exact ⟨child false, child true⟩

/-- The root of two leaves or more, as a node of the list, stands at depth 0. -/
theorem depth_last_of_build (htwo : 2 ≤ (symbolsOf text).length) {depth : NodeIdx → Nat}
    (hdepth : IsDepth (commitBuild (buildTree text) s) depth)
    {x : Node} (hlast : (seed (countSymbols text) ++ mergesOf text).getLast? = some x) : depth x.seq = 0 := by
  have built := builtTree_commitBuild hne s
  have hroot := built.rootIndex
  have nleaf := commitBuild_buildTree_nleaf text s
  obtain ⟨l, r, -, -, -, hinternal⟩ := built.internals _ (by omega) built.root_lt
  have hseq : x.seq = (commitBuild (buildTree text) s).root := by
    rw [← Option.some.inj ((root_of_build hne s).symm.trans hlast)]
    exact congrArg Node.seq hinternal
  exact hseq ▸ hdepth [] _ rfl

/-- A leaf stands as deep as its symbol's code is long. -/
theorem depth_leaf_of_build (htwo : 2 ≤ (symbolsOf text).length) {depth : NodeIdx → Nat}
    (hdepth : IsDepth (commitBuild (buildTree text) s) depth)
    {k : Nat} {a : Symbol} (hk : (symbolsOf text)[k]? = some a) :
    depth (Fin.ofNat 511 k) = ((atSym (buildTree text).code a).getD []).length := by
  have built := builtTree_commitBuild hne s
  have hstored := stores_commitBuild (buildTree text) s
  have nleaf := commitBuild_buildTree_nleaf text s
  have hle := symbolsOf_length_le text
  have hkn := (List.getElem?_eq_some_iff.1 hk).1
  obtain ⟨j, rfl⟩ : ∃ j : NodeIdx, j.val = k := ⟨⟨k, by omega⟩, rfl⟩
  obtain ⟨p, hp⟩ := Option.isSome_iff_exists.1
    ((code_isSome_iff hstored hne a).2 (mem_symbolsOf.1 (List.mem_of_getElem? hk)))
  obtain ⟨i, hi, hia, hpath⟩ := built.codePaths (by omega) a p hp
  obtain rfl := built.leaf_unique hi (by omega) hia ⟨_, _, leaf_of_build hstored hk⟩
  rw [hp, Option.getD_some, ← hdepth p i hpath, Fin.ofNat_val_eq_self]

/-- With two symbols or more, the encoded text has as many bits as the merges cost. -/
theorem length_codesOf_eq_cost (htwo : 2 ≤ (symbolsOf text).length) :
    (codesOf (commitBuild (buildTree text) s) text).length = ((mergesOf text).map Node.weight).sum := by
  obtain ⟨depth, hdepth⟩ := (builtTree_commitBuild hne s).exists_depth
  obtain ⟨x, hlast, -, hcost⟩ := exists_last_combine (k := (symbolsOf text).length) (seed_length_eq_succ hne)
  calc (codesOf (commitBuild (buildTree text) s) text).length
      = (text.map fun a => ((atSym (buildTree text).code a).getD []).length).sum := List.length_flatMap
    _ = ((symbolsOf text).map fun a => text.count a * ((atSym (buildTree text).code a).getD []).length).sum :=
        (sum_count_mul text _).symm
    _ = ((seed (countSymbols text)).map fun y => y.weight * depth y.seq).sum := by
        rw [map_seed fun k a hk => congrArg (text.count a * ·) (depth_leaf_of_build hne s htwo hdepth hk)]
    _ = ((mergesOf text).map Node.weight).sum := by
        rw [hcost depth (childrenDeeper_mergesOf hne s hdepth), depth_last_of_build hne s htwo hdepth hlast,
          Nat.mul_zero, Nat.add_zero, mergesOf]

/-- The merges of a build halve the collection `clog 2 n` times. -/
theorem cost_mergesOf_le :
    ((mergesOf text).map Node.weight).sum ≤ text.length * Nat.clog 2 (symbolsOf text).length := by
  have cost := cost_combine_le (k := (symbolsOf text).length) (seed_length_eq_succ hne)
    (c := Nat.clog 2 (symbolsOf text).length) (m := 0) (Multiset.zero_le _) le_rfl
    (by rw [seed_length]; exact Nat.le_pow_clog (by decide) _)
  rwa [sum_weight_seed, Multiset.sum_zero, Nat.zero_add] at cost

theorem allCoded_commitBuild : AllCoded (commitBuild (buildTree text) s) text :=
  fun a ha => (code_isSome_iff (stores_commitBuild _ s) hne a).2 ha

/-- With one symbol the encoded text has a bit for each of its symbols, with more as many as the merges cost. -/
theorem length_codesOf_le : (codesOf (commitBuild (buildTree text) s) text).length ≤
    text.length * max 1 (Nat.clog 2 (symbolsOf text).length) := by
  obtain htwo | hone := Nat.lt_or_ge 1 (symbolsOf text).length
  · rw [length_codesOf_eq_cost hne s htwo]
    exact (cost_mergesOf_le hne).trans (Nat.mul_le_mul_left _ (le_max_right _ _))
  · have oneBit (a : Symbol) (p : Bits) (hp : atSym (buildTree text).code a = some p) : p.length ≤ 1 := by
      have := ((builtTree_commitBuild hne s).code_length hp).2
      rw [commitBuild_buildTree_nleaf] at this
      omega
    have hlen := length_encodeText_le oneBit (encodeText_of_coded _ _ (allCoded_commitBuild hne s))
    exact (hlen.trans_eq (Nat.mul_comm _ _)).trans (Nat.mul_le_mul_left _ (le_max_left _ _))

end BuildOfText

/-- HUF_BUILD of a presented text. -/
theorem exec_hufBuild_of_text {text : List Byte} (hne : text ≠ []) (s : State) :
    exec .hufBuild { s with captured := text } = .next (commitBuild (buildTree text) s) :=
  exec_hufBuild_of_ne (s := { s with captured := text }) hne

/-- HUF_ENCODE of the text of the build. -/
theorem exec_hufEncode_of_build {text : List Byte} (hne : text ≠ []) {t : State}
    (hcode : t.code = (buildTree text).code) (htext : t.captured = text) :
    exec .hufEncode t =
      .next (t.completed .ok (BitVec.ofNat 32 (codesOf t text).length) (bitElements (codesOf t text))) := by
  have coded : AllCoded t t.captured := by
    rw [htext, AllCoded, hcode]
    exact allCoded_commitBuild hne t
  exact htext ▸ (encodeConcatenatesTheCodes t).1 coded

/-! ## The obligations -/

/-- Settles O25: a text of one symbol is encoded to the code of that symbol. -/
theorem lookupReadsOneCode : Obligations.LookupReadsOneCode := by
  intro s sym bits _ hcode
  have coded : AllCoded s [BitVec.ofNat 8 sym] := by simp [AllCoded, hcode]
  have codes : codesOf s [BitVec.ofNat 8 sym] = bits := by simp [codesOf, hcode]
  refine ⟨rfl, ((encodeConcatenatesTheCodes { s with captured := [BitVec.ofNat 8 sym] }).1 coded).trans ?_⟩
  rw [show codesOf { s with captured := [BitVec.ofNat 8 sym] } [BitVec.ofNat 8 sym] = bits from codes]
  rfl

/-- Settles O28: an empty text has no tree. -/
theorem buildOfEmptyTextKeepsTheTree : Obligations.BuildOfEmptyTextKeepsTheTree :=
  fun s hempty => (exec_hufBuild s).trans (if_pos hempty)

/-- Settles O29: what HUF_BUILD commits is a function of the text and of the number of the next free value. -/
theorem buildReplacesTheHuffmanState : Obligations.BuildReplacesTheHuffmanState := by
  intro s hne
  have hdedup := (symbolsOf_perm_dedup s.captured).length_eq
  refine ⟨(commitBuild (buildTree s.captured) s).node, (buildTree s.captured).root,
    (commitBuild (buildTree s.captured) s).nleaf, (buildTree s.captured).code,
    (buildTree s.captured).freq, fun u hcaptured hdraws => ?_, ?_, ?_, ?_, ?_, fun a => ?_⟩
  · rw [exec_hufBuild_of_ne (hcaptured ▸ hne), hcaptured, ← hdedup, ← buildTree_nleaf, commitBuild_node, ← hdraws]
    rfl
  · rw [← hdedup]
    exact commitBuild_buildTree_nleaf s.captured s
  · exact hdedup ▸ symbolsOf_length_pos hne
  · exact hdedup ▸ symbolsOf_length_le s.captured
  · exact hdedup ▸ buildTree_root_val s.captured
  · rw [buildTree_freq, atSym_countSymbols]

/-- Settles O34: an empty text fails, and another reaches the tree through its counts alone. -/
theorem buildIgnoresTheOrderOfTheText : Obligations.BuildIgnoresTheOrderOfTheText := by
  intro s text text' hperm
  obtain rfl | hne := eq_or_ne text []
  · rw [hperm.nil_eq]
  · have hne' : text' ≠ [] := fun h => hne ((h ▸ hperm).eq_nil)
    rw [exec_hufBuild_of_text hne, exec_hufBuild_of_text hne', buildTree_of_perm hperm]

/-- Settles O35: no node weighs more than the root, which weighs as much as the text has symbols. -/
theorem buildNeverOverflows : Obligations.BuildNeverOverflows := by
  intro s hne hlen
  have hroot := rootWeight_of_build hne s
  refine ⟨_, exec_hufBuild_of_ne hne, fun a => ?_, fun k hk => ?_, hroot⟩
  · have hcount : s.captured.count a ≤ s.captured.length := List.count_le_length
    rw [commitBuild_freq, buildTree_freq, atSym_countSymbols]
    omega
  · have hle := (builtTree_commitBuild hne s).weight_le_root hk
    rw [hroot] at hle
    omega

/-- Settles O44: the encoded text has as many bits as the merges cost. -/
theorem encodedLengthIsBounded : Obligations.EncodedLengthIsBounded := by
  intro s text hne
  refine ⟨_, _, exec_hufBuild_of_text hne s, exec_hufEncode_of_build hne rfl rfl, rfl, ?_⟩
  have hlen := length_codesOf_le hne s
  rw [(symbolsOf_perm_dedup text).length_eq] at hlen
  exact (List.length_map _).trans_le hlen

end Sys2Proof.Machine

/-! The statements about whole programs (40_huffman.md R110; 70_reset_and_hazards.md R239): a text is built, encoded
and decoded, by the host's turns or command by command over a noisy channel. Every command after the build finds the
tree and the codes of the text. -/

namespace Sys2Proof.Machine

/-- The block holds the tree and the codes of a build of the text. -/
structure HoldsBuildOf (text : List Symbol) (s : State) : Prop where
  valid : s.treeValid = true
  tree : BuiltTree s
  code : s.code = (buildTree text).code

theorem holdsBuildOf_commitBuild {text : List Symbol} (hne : text ≠ []) (s : State) :
    HoldsBuildOf text (commitBuild (buildTree text) s) :=
  ⟨rfl, builtTree_commitBuild hne s, rfl⟩

namespace HoldsBuildOf

variable {text : List Symbol} {s t : State}

theorem congr (h : HoldsBuildOf text s) (hsame : SameHuffman s t) : HoldsBuildOf text t := by
  obtain ⟨hvalid, hnleaf, hroot, hnode, hcode⟩ := hsame
  exact ⟨hvalid.trans h.valid, h.tree.congr hnleaf hroot hnode hcode, hcode.trans h.code⟩

/-- The codes are those of the text, in whatever state they stand. -/
theorem codesOf_eq (h : HoldsBuildOf text s) (h' : HoldsBuildOf text t) : codesOf t text = codesOf s text := by
  simp only [codesOf, h.code, h'.code]

/-- HUF_ENCODE of the text gives its codes. -/
theorem exec_hufEncode (h : HoldsBuildOf text s) (hne : text ≠ []) (hcaptured : s.captured = text) :
    exec .hufEncode s =
      .next (s.completed .ok (BitVec.ofNat 32 (codesOf s text).length) (bitElements (codesOf s text))) :=
  exec_hufEncode_of_build hne h.code hcaptured

/-- HUF_DECODE of the codes of the text gives it back. -/
theorem exec_hufDecode (h : HoldsBuildOf text s) (hne : text ≠ [])
    (hcaptured : s.captured = bitElements (codesOf s text)) :
    exec .hufDecode s = .next (s.completed .ok (BitVec.ofNat 32 text.length) text) := by
  have coded : AllCoded s text := by
    rw [AllCoded, h.code]
    exact allCoded_commitBuild hne s
  refine exec_hufDecode_of_some h.valid (h.tree.decodeBits_eq_some_iff.2 ⟨coded, ?_⟩)
  rw [hcaptured, map_bitOf_bitElements]

end HoldsBuildOf

/-! ## The host's turns of the round trip -/

section Turns

variable {text : List Symbol} {s : State} {rest : List Turn}

theorem run_build (hs : s.script = .host (.write 0 4 (encode .hufBuild)) :: .host .poll :: rest)
    (hidle : s.busy = false) (hne : text ≠ []) (hport : s.inPort = text) (hlen : text.length ≤ s.maxIn) :
    ∃ t, core.run 3 s = .next t ∧ HoldsBuildOf text t ∧ t.busy = false ∧ t.script = rest ∧ t.inPort = text ∧
      t.maxIn = s.maxIn := by
  subst hport
  obtain ⟨t, ht, hrun⟩ := run_write_poll hs hidle hlen
  obtain rfl := Host.Outcome.next.inj ((exec_hufBuild_of_ne (by exact hne)).symm.trans ht)
  exact ⟨_, hrun, (holdsBuildOf_commitBuild hne _).congr ⟨rfl, rfl, rfl, rfl, rfl⟩, rfl, rfl, rfl, rfl⟩

theorem run_encode (hs : s.script = .host (.write 0 4 (encode .hufEncode)) :: .host .poll :: rest)
    (hidle : s.busy = false) (hne : text ≠ []) (hbuild : HoldsBuildOf text s) (hport : s.inPort = text)
    (hlen : text.length ≤ s.maxIn) :
    ∃ t, core.run 3 s = .next t ∧ HoldsBuildOf text t ∧ t.busy = false ∧ t.script = rest ∧
      t.out = bitElements (codesOf s text) ∧ t.maxIn = s.maxIn := by
  subst hport
  obtain ⟨t, ht, hrun⟩ := run_write_poll hs hidle hlen
  have issued := hbuild.congr (t := { s with
    script := .host .poll :: rest, cmd := encode .hufEncode, captured := s.inPort, busy := true })
    ⟨rfl, rfl, rfl, rfl, rfl⟩
  obtain rfl := Host.Outcome.next.inj ((issued.exec_hufEncode hne rfl).symm.trans ht)
  exact ⟨_, hrun, hbuild.congr ⟨rfl, rfl, rfl, rfl, rfl⟩, rfl, rfl, rfl, rfl⟩

theorem run_decode (hs : s.script = .host (.write 0 4 (encode .hufDecode)) :: .host .poll :: rest)
    (hidle : s.busy = false) (hne : text ≠ []) (hbuild : HoldsBuildOf text s)
    (hport : s.inPort = bitElements (codesOf s text)) (hlen : (codesOf s text).length ≤ s.maxIn) :
    ∃ t, core.run 3 s = .next t ∧ t.busy = false ∧ t.script = rest ∧ t.err = .ok ∧ t.out = text ∧
      t.result = BitVec.ofNat 32 text.length := by
  obtain ⟨t, ht, hrun⟩ := run_write_poll hs hidle (by rwa [hport, bitElements, List.length_map])
  have issued := hbuild.congr (t := { s with
    script := .host .poll :: rest, cmd := encode .hufDecode, captured := s.inPort, busy := true })
    ⟨rfl, rfl, rfl, rfl, rfl⟩
  obtain rfl := Host.Outcome.next.inj ((issued.exec_hufDecode hne hport).symm.trans ht)
  exact ⟨_, hrun, rfl, rfl, rfl, rfl, rfl⟩

/-- The host reads OUT and presents it again. -/
theorem run_readOut_presentOut (hs : s.script = .host .readOut :: .host .presentOut :: rest) (hidle : s.busy = false) :
    ∃ t, core.run 2 s = .next t ∧ SameHuffman s t ∧ t.busy = false ∧ t.script = rest ∧ t.inPort = s.out ∧
      t.maxIn = s.maxIn := by
  have hread := step_of_readOut hs
  rw [readOut_of_idle (s := { s with script := .host .presentOut :: rest }) hidle] at hread
  rw [run_succ_of_next hread, run_succ_of_next (step_of_host (a := .presentOut) rfl)]
  exact ⟨_, rfl, ⟨rfl, rfl, rfl, rfl, rfl⟩, hidle, rfl, rfl, rfl⟩

end Turns

/-! ## The obligations -/

/-- Settles O43: the present, the three commands with their polls, and the turns of the host between them. -/
theorem huffmanRoundTrip : Obligations.HuffmanRoundTrip := by
  intro s text hne hlen hidle ⟨⟨t, ht, hcodes⟩, hs⟩
  obtain rfl := Host.Outcome.next.inj ((exec_hufBuild_of_text hne s).symm.trans ht)
  have present : step s = .next { s with inPort := text, script := s.script.tail } :=
    (step_of_host hs).trans (by rw [hs]; rfl)
  obtain ⟨t₁, hbuild, holds₁, hidle₁, hs₁, hport₁, hmax₁⟩ :=
    run_build (s := { s with inPort := text, script := s.script.tail }) (congrArg List.tail hs) hidle hne rfl hlen
  obtain ⟨t₂, hencode, holds₂, hidle₂, hs₂, hout₂, hmax₂⟩ :=
    run_encode hs₁ hidle₁ hne holds₁ hport₁ (hlen.trans_eq hmax₁.symm)
  obtain ⟨t₃, hrepeat, hsame, hidle₃, hs₃, hport₃, hmax₃⟩ := run_readOut_presentOut hs₂ hidle₂
  have holds₃ := holds₂.congr hsame
  have fits : (codesOf t₃ text).length ≤ t₃.maxIn := by
    rw [(holdsBuildOf_commitBuild hne s).codesOf_eq holds₃, hmax₃, hmax₂, hmax₁]
    exact hcodes
  obtain ⟨t₄, hdecode, hidle₄, hs₄, herr, hout, hresult⟩ :=
    run_decode hs₃ hidle₃ hne holds₃ (by rw [hport₃, hout₂, holds₁.codesOf_eq holds₃]) fits
  have hread := step_of_readOut hs₄
  rw [readOut_of_idle (s := { t₄ with script := [] }) hidle₄] at hread
  refine ⟨13, { t₄ with script := [], rout := t₄.out }, ?_, rfl, hidle₄, herr, hout, hresult⟩
  rw [run_succ_of_next present, run_add hbuild 9, run_add hencode 6, run_add hrepeat 4, run_add hdecode 1,
    run_succ_of_next hread]
  rfl

/-- Settles O58: HAM_DECODE_STREAM gives the bits of HUF_ENCODE back, and no Hamming command touches the tree. -/
theorem noisyChannelDeliversTheText : Obligations.NoisyChannelDeliversTheText := by
  intro s text hne
  have holds₁ := holdsBuildOf_commitBuild hne s
  have presented : HoldsBuildOf text { commitBuild (buildTree text) s with captured := text } :=
    holds₁.congr ⟨rfl, rfl, rfl, rfl, rfl⟩
  obtain ⟨t₂, hencode, holds₂, hout₂⟩ : ∃ t, exec .hufEncode { commitBuild (buildTree text) s with captured := text } =
      .next t ∧ HoldsBuildOf text t ∧ t.out = bitElements (codesOf t text) :=
    ⟨_, presented.exec_hufEncode hne rfl, presented.congr ⟨rfl, rfl, rfl, rfl, rfl⟩, rfl⟩
  obtain ⟨t₃, hwords, holds₃, hout₃⟩ : ∃ t, exec .hamEncodeStream { t₂ with captured := t₂.out } = .next t ∧
      HoldsBuildOf text t ∧ t.out = (dataBlocks (t₂.out.map bitOf)).map fun d => codeWordElement (generate d) :=
    ⟨_, exec_hamEncodeStream _, holds₂.congr ⟨rfl, rfl, rfl, rfl, rfl⟩, rfl⟩
  refine ⟨_, t₂, t₃, exec_hufBuild_of_text hne s, hencode, hwords, fun received hlen hchannel => ?_⟩
  have length : t₂.out.length = (codesOf t₂ text).length := by rw [hout₂, bitElements, List.length_map]
  rw [hout₃, hout₂, map_bitOf_bitElements] at hchannel
  rw [length] at hlen ⊢
  refine ⟨_, _, exec_hamDecodeStream_of_channel t₃ hlen hchannel, HoldsBuildOf.exec_hufDecode (text := text)
    (holds₃.congr ⟨rfl, rfl, rfl, rfl, rfl⟩) hne ?_, rfl, rfl⟩
  exact congrArg bitElements (holds₃.codesOf_eq holds₂)

end Sys2Proof.Machine
